-- ==== Sys2Proof/Word.lean ====
section
/-! DEFINITION. The natural unit of the block is the byte (00_scope.md R7, R8). -/

namespace Sys2Proof

/-- A byte, an unsigned 8-bit value (R8). -/
abbrev Byte := BitVec 8

end Sys2Proof
end

