-- ==== Sys2Proof/Config.lean ====
section
/-! DEFINITION. The hardwired constants and parameters of 00_scope.md Table R6. -/

namespace Sys2Proof.Config

/-- `DELIM`: the frame start marker. -/
def delim : Byte := 0x7E

/-- `FT_TXREQ`: frame type "Transmit Request". -/
def ftTxreq : Byte := 0x10

/-- `FRAME_ID`: fixed, it does not count (R73). -/
def frameId : Byte := 0x01

/-- `ADDR_LEN`: bytes in an Address. -/
def addrLen : Nat := 8

/-- `NET_ADDR`: the reserved network address, two bytes in this order. -/
def netAddr : List Byte := [0xFF, 0xFE]

/-- `RADIUS`: the broadcast radius. -/
def radius : Byte := 0x00

/-- `OPTIONS`. -/
def options : Byte := 0x00

/-- `META_LEN`: bytes from the frame type through the options. -/
def metaLen : Nat := 14

/-- `HDR_LEN`: delimiter, two length bytes, 14 metadata bytes. -/
def hdrLen : Nat := 17

/-- `BCAST_ADDR`: the broadcast pattern; the encoder treats it like any other address (R74). -/
def bcastAddr : List Byte := [0x00, 0x00, 0x00, 0x00, 0x00, 0x00, 0xFF, 0xFF]

/-- `LEN_BIAS`: by how much the length field exceeds the count of body bytes. The spec decides 1 and
keeps it a parameter (D1, conflict C1); every definition of the model is written in terms of it.
DESIGN CHOICE: a constant at the decided value (assumption 9). -/
def lenBias : Nat := 1

/-- `LEN_MAX`: the largest value of the 16-bit length field. -/
def lenMax : Nat := 65535

/-- `MAX_PAYLOAD` = 65535 - 14 - `LEN_BIAS`. -/
def maxPayload : Nat := lenMax - metaLen - lenBias

/-- `RX_BUF_CAP`: bytes of the decoder's body buffer. -/
def rxBufCap : Nat := 65536

/-- `T_IDLE`: the caller's inactivity timeout, left OPEN by the spec; no rule of the block reads it
(R154, D21), and nothing in the model does. No body: no proof can see a value (assumption 10). -/
opaque tIdle : Nat

end Sys2Proof.Config
end

