-- ==== Sys2Proof/Machine/Flags.lean ====
section
/-! DEFINITION. The checksum unit's arithmetic (41_checksum.md). The block has no condition flag: its
one flag, `high_byte_seen`, is a decoder register (R32), and every carry is dropped (R127). -/

namespace Sys2Proof.Machine

/-- `sum(S)`: the sum of the bytes as natural numbers, 0 for the empty sequence (R9). -/
def byteSum : List Byte → Nat
  | [] => 0
  | b :: S => b.toNat + byteSum S

/-- `csum(S) = 0xFF - (sum(S) mod 256)` (R120). -/
def csum (S : List Byte) : Byte := BitVec.ofNat 8 (0xFF - byteSum S % 256)

/-- `verify(body, c) = ((sum(body) + c) & 0xFF) == 0xFF` (R122). -/
def verify (body : List Byte) (c : Byte) : Bool := ((byteSum body + c.toNat) &&& 0xFF) == 0xFF

/-- The accumulator's `clear` (R124). -/
def accClear : Byte := 0

/-- The accumulator's `add(b)`; the carry out of bit 7 is discarded (R124). -/
def accAdd (acc b : Byte) : Byte := acc + b

/-- The accumulator's `final` (R124). -/
def accFinal (acc : Byte) : Byte := 0xFF - acc

/-- `clear`, then `add` of each byte of `S` in order (R124). -/
def accOf (S : List Byte) : Byte := S.foldl accAdd accClear

end Sys2Proof.Machine
end

