-- ==== Sys2Proof/Machine/Operands.lean ====
section
/-! DEFINITION. Operand forms: the checks `ENC` makes on its operands and the frame it assembles from
them (30_encoding.md section 1, 40_encoder.md), and the length field's assembly (R77). -/

namespace Sys2Proof.Machine

/-- The operand checks of `ENC`, one disjunction because there is one error for both causes (R101). -/
def encOperandsBad (A P : List Byte) : Bool :=
  decide (A.length ≠ Config.addrLen) || decide (Config.metaLen + P.length + Config.lenBias > Config.lenMax)

/-- `L = 14 + n + LEN_BIAS`, the value of the length field (R71). -/
def frameLen (P : List Byte) : Nat := Config.metaLen + P.length + Config.lenBias

/-- `hi = (L >> 8) & 0xFF` (R77). -/
def lenHiByte (L : Nat) : Byte := BitVec.ofNat 8 ((L >>> 8) &&& 0xFF)

/-- `lo = L & 0xFF` (R77). -/
def lenLoByte (L : Nat) : Byte := BitVec.ofNat 8 (L &&& 0xFF)

/-- `declared_len = (zext_16(len_hi) << 8) | zext_16(lo)` (R77). -/
def assembleLen (hi lo : Byte) : BitVec 16 := (hi.setWidth 16 <<< 8) ||| lo.setWidth 16

/-- The body of an outbound frame: frame type through the last payload byte (R70, R104). -/
def txBody (A P : List Byte) : List Byte :=
  [Config.ftTxreq, Config.frameId] ++ A ++ Config.netAddr ++ [Config.radius, Config.options] ++ P

/-- The outbound frame as a concatenation (R104): delimiter, big-endian length, body, checksum. -/
def txFrame (A P : List Byte) : List Byte :=
  [Config.delim, lenHiByte (frameLen P), lenLoByte (frameLen P)] ++ txBody A P ++ [csum (txBody A P)]

/-- An inbound frame's bytes in wire order (Table R75). -/
def rxFrame (declaredLen : BitVec 16) (tail : List Byte) : List Byte :=
  [Config.delim, lenHiByte declaredLen.toNat, lenLoByte declaredLen.toNat] ++ tail

end Sys2Proof.Machine
end

