-- ==== Sys2Proof/Syntax.lean ====
section
/-! DEFINITION. One constructor for each row of spec/opcode_table.json. -/

namespace Sys2Proof

/-- The operations (R80), the reserved command codes (R81), the pseudo-operations (R84) and the two
wire formats (R70, R75) of the opcode table (R85). `imm` is no operand of a format that ignores it. -/
inductive Instr where
  /-- `RST` (CMD-0, op 0): R180. -/
  | rst
  /-- `ENC A, P` (CMD-S, op 1): address and payload, each of any length (R100, R101). -/
  | enc (A P : List Byte)
  /-- `FEED b` (CMD-B, op 2): R140. -/
  | feed (b : Byte)
  /-- `ABORT` (CMD-0, op 3): R153. -/
  | abort
  /-- `CSUM S` (CMD-S, op 4): R125. -/
  | csum (S : List Byte)
  /-- `CSVFY S, c` (CMD-SB, op 5): R126. -/
  | csvfy (S : List Byte) (c : Byte)
  /-- Reserved op 6: R81, R182. -/
  | reserved6
  /-- Reserved op 7: R81, R182. -/
  | reserved7
  /-- `FEEDN S` (pseudo-operation): R152. -/
  | feedn (S : List Byte)
  /-- `DECODE S` (pseudo-operation): R155. -/
  | decode (S : List Byte)
  /-- The outbound wire frame (Table R70), given by its address and its payload; every other byte of
  the frame follows from them. -/
  | txreq (A P : List Byte)
  /-- The inbound wire frame (Table R75): its 16-bit length field and the bytes that follow it, which
  are the body and then the checksum byte (none when the length field is degenerate, R144). -/
  | rxframe (declaredLen : BitVec 16) (tail : List Byte)
deriving DecidableEq, Repr

end Sys2Proof
end

