-- ==== Sys2Proof/WellFormed.lean ====
section
/-! DEFINITION. Which terms of `Instr` are instructions. An operation takes byte sequences of any
length (R40, R84, R125); only the two wire formats constrain their fields. -/

namespace Sys2Proof

/-- How many bytes follow the length field of an inbound frame: `declared_len - LEN_BIAS` body bytes
and the checksum byte (R75), or none when the length is degenerate (R144). -/
def tailLen (declaredLen : BitVec 16) : Nat :=
  if declaredLen.toNat ≤ Config.lenBias then 0 else declaredLen.toNat - Config.lenBias + 1

/-- An outbound frame has an 8-byte address and a payload its length field can count (R70, R101); an
inbound frame has as many bytes as its length field declares (R75). -/
def Instr.wellFormed : Instr → Bool
  | .rst => true
  | .enc _ _ => true
  | .feed _ => true
  | .abort => true
  | .csum _ => true
  | .csvfy _ _ => true
  | .reserved6 => true
  | .reserved7 => true
  | .feedn _ => true
  | .decode _ => true
  | .txreq A P => decide (A.length = Config.addrLen) && decide (P.length ≤ Config.maxPayload)
  | .rxframe declaredLen tail => decide (tail.length = tailLen declaredLen)

end Sys2Proof
end

