-- ==== Sys2Proof/Decode.lean ====
section
/-! DEFINITION. From what a caller hands the block to an instruction and back: the command words of
Table R80, the pseudo-operations by name (R84), the wire frames of Tables R70 and R75. -/

namespace Sys2Proof

/-- What the caller hands the block. A command is an 11-bit word with its sequence operands beside it,
which have no bit coding (R80); a pseudo-operation has no command code and is handed over by name
(R84); a whole wire frame is its bytes in wire order (R85).
DESIGN CHOICE: the two sequence ports of a command (assumption 6); the last four forms (assumptions 7
and 8). -/
inductive Request where
  /-- A command word; `seq0` carries `A` or `S`, `seq1` carries `P`; a format without the operand
  ignores its port, as it ignores `imm`. -/
  | command (word : BitVec 11) (seq0 seq1 : List Byte)
  /-- `FEEDN S`. -/
  | chunk (S : List Byte)
  /-- `DECODE S`. -/
  | fresh (S : List Byte)
  /-- The bytes of an outbound frame (`TXREQ`). -/
  | outbound (F : List Byte)
  /-- The bytes of an inbound frame (`RXFRAME`). -/
  | inbound (F : List Byte)
deriving DecidableEq, Repr

/-- Why a request is no instruction. -/
inductive DecodeError where
  /-- Outbound bytes that do not match the 17-byte header pattern of the `TXREQ` row (R85, R86). -/
  | outboundHeader
  /-- Outbound bytes whose count is not what their length field says (R70, R72). -/
  | outboundLength
  /-- Outbound bytes whose last byte is not the checksum of the body (R70). -/
  | outboundChecksum
  /-- Inbound bytes that do not start with the delimiter (R75). -/
  | inboundDelimiter
  /-- Inbound bytes that end before the length field does (R75). -/
  | inboundShort
  /-- Inbound bytes whose count is not what their length field declares (R75). -/
  | inboundLength
deriving DecidableEq, Repr

/-- `op = word[10:8]` (R80). -/
def opOf (word : BitVec 11) : BitVec 3 := word.extractLsb' 8 3

/-- `imm = word[7:0]` (R80). -/
def immOf (word : BitVec 11) : Byte := word.extractLsb' 0 8

/-- The word `(op << 8) | imm` (R83). -/
def commandWord (op : BitVec 3) (imm : Byte) : BitVec 11 := (op.setWidth 11 <<< 8) ||| imm.setWidth 11

/-- Table R80: every 3-bit `op` is a row, so every command word is some instruction. -/
def decodeCommand (word : BitVec 11) (seq0 seq1 : List Byte) : Instr :=
  match (opOf word).toNat with
  | 0 => .rst
  | 1 => .enc seq0 seq1
  | 2 => .feed (immOf word)
  | 3 => .abort
  | 4 => .csum seq0
  | 5 => .csvfy seq0 (immOf word)
  | 6 => .reserved6
  | _ => .reserved7

/-- The byte patterns of the opcode table's `TXREQ` row, `(match, mask)` byte by byte (R85, R86). -/
def txreqPattern : List (Byte × Byte) :=
  [(0x7E, 0xFF), (0x00, 0x00), (0x00, 0x00), (0x10, 0xFF), (0x01, 0xFF)] ++ List.replicate 8 (0x00, 0x00) ++
    [(0xFF, 0xFF), (0xFE, 0xFF), (0x00, 0xFF), (0x00, 0xFF)]

/-- Whether bytes begin with a pattern. -/
def matchesPattern : List (Byte × Byte) → List Byte → Bool
  | [], _ => true
  | _ :: _, [] => false
  | (m, k) :: ps, b :: bs => decide (b &&& k = m) && matchesPattern ps bs

/-- Reads an outbound frame: header pattern, then length, then checksum (Table R70). -/
def decodeOutbound (F : List Byte) : Except DecodeError Instr :=
  let A := (F.drop 5).take Config.addrLen
  let P := (F.drop Config.hdrLen).dropLast
  if ¬ matchesPattern txreqPattern F then .error .outboundHeader
  else if F.length ≤ Config.hdrLen ∨ Config.maxPayload < P.length ∨
      F.getD 1 0 ≠ Machine.lenHiByte (Machine.frameLen P) ∨ F.getD 2 0 ≠ Machine.lenLoByte (Machine.frameLen P) then
    .error .outboundLength
  else if F.getLast? ≠ some (Machine.csum (Machine.txBody A P)) then .error .outboundChecksum
  else .ok (.txreq A P)

/-- Reads an inbound frame: delimiter, length field, then as many bytes as it declares (Table R75). -/
def decodeInbound : List Byte → Except DecodeError Instr
  | [] => .error .inboundDelimiter
  | d :: rest =>
    if d ≠ Config.delim then .error .inboundDelimiter
    else match rest with
      | hi :: lo :: tail =>
        if tail.length = tailLen (Machine.assembleLen hi lo) then .ok (.rxframe (Machine.assembleLen hi lo) tail)
        else .error .inboundLength
      | _ => .error .inboundShort

/-- The instruction a request is, total on any request. -/
def decode : Request → Except DecodeError Instr
  | .command word seq0 seq1 => .ok (decodeCommand word seq0 seq1)
  | .chunk S => .ok (.feedn S)
  | .fresh S => .ok (.decode S)
  | .outbound F => decodeOutbound F
  | .inbound F => decodeInbound F

/-- The canonical request of an instruction: `imm` is 0 where its format ignores it (R83, U9) and an
unused sequence port is empty. -/
def encode : Instr → Request
  | .rst => .command (commandWord 0 0) [] []
  | .enc A P => .command (commandWord 1 0) A P
  | .feed b => .command (commandWord 2 b) [] []
  | .abort => .command (commandWord 3 0) [] []
  | .csum S => .command (commandWord 4 0) S []
  | .csvfy S c => .command (commandWord 5 c) S []
  | .reserved6 => .command (commandWord 6 0) [] []
  | .reserved7 => .command (commandWord 7 0) [] []
  | .feedn S => .chunk S
  | .decode S => .fresh S
  | .txreq A P => .outbound (Machine.txFrame A P)
  | .rxframe declaredLen tail => .inbound (Machine.rxFrame declaredLen tail)

/-- The core operations an instruction stands for: itself, the expansion of a pseudo-operation (R84),
or the operations that produce or take a wire frame (R85). -/
def expand : Instr → List Instr
  | .rst => [.rst]
  | .enc A P => [.enc A P]
  | .feed b => [.feed b]
  | .abort => [.abort]
  | .csum S => [.csum S]
  | .csvfy S c => [.csvfy S c]
  | .reserved6 => [.reserved6]
  | .reserved7 => [.reserved7]
  | .feedn S => S.map .feed
  | .decode S => .rst :: S.map .feed
  | .txreq A P => [.enc A P]
  | .rxframe declaredLen tail => (Machine.rxFrame declaredLen tail).map .feed

/-- The first `n` bytes of a number whose byte 0 is its least significant one. -/
def leBytes : Nat → Nat → List Byte
  | 0, _ => []
  | n + 1, w => BitVec.ofNat 8 w :: leBytes n (w / 256)

/-- The request that the bits of an opcode-table row stand for, with every bit above them 0: a command
word of 11 bits in its two bytes, the `RXFRAME` row's one byte (or three, with its length field), the
`TXREQ` row's 17 bytes. What the bits do not give is zeros: empty sequence operands, zero length bytes,
zero payload and checksum bytes. DESIGN CHOICE: the numbering of the wire rows (assumption 16). -/
def tableRequest (nbits w : Nat) : Option Request :=
  if nbits = 8 ∨ nbits = 24 then
    let header := leBytes 3 w
    let tail := tailLen (Machine.assembleLen (header.getD 1 0) (header.getD 2 0))
    if w < 2 ^ nbits then some (.inbound (header ++ List.replicate tail 0)) else none
  else if nbits = 136 then
    let header := leBytes 17 w
    let L := (Machine.assembleLen (header.getD 1 0) (header.getD 2 0)).toNat
    if w < 2 ^ nbits then
      some (.outbound (header ++ List.replicate (L - Config.metaLen - Config.lenBias + 1) 0))
    else none
  else if w < 2 ^ 11 then some (.command (BitVec.ofNat 11 w) [] [])
  else none

/-- The instruction the decoder reads from the bits of an opcode-table row. -/
def decodeTableWord (nbits w : Nat) : Option Instr :=
  match tableRequest nbits w with
  | some r => match decode r with
    | .ok i => some i
    | .error _ => none
  | none => none

end Sys2Proof
end

