-- ==== Sys2Proof/Machine/State.lean ====
section
/-! DEFINITION. The state of one decoder instance (10_state.md Table R37) with the caller's issue order
and the results returned, as plain data; the results and the reasons a step can stop. -/

namespace Sys2Proof.Machine

/-- `rx_state` (R22). The 2-bit code 3 is reserved and a model's state type has no such value (U5). -/
inductive RxState where
  /-- Code 0: waiting for a delimiter. -/
  | seeking
  /-- Code 1: taking the two length bytes. -/
  | readingLength
  /-- Code 2: taking the body and the checksum byte. -/
  | readingBody
deriving DecidableEq, Repr

/-- A byte space as its listed cells: addresses strictly rising, no cell equal to what an unlisted
address reads as (`Memory.wf` in Machine/Ops.lean). -/
abbrev Memory := List Host.Cell

/-- What an unlisted index of `RXBUF` reads as. The spec leaves the contents unspecified and lets no
rule read them (R26, R38, U3). DESIGN CHOICE: zero (assumption 4). -/
def Memory.unlisted : Byte := 0

/-- A returned frame: its one stored field is the body (R40, R147); the views are in Machine/Ops.lean. -/
structure Frame where
  /-- The bytes from the frame type through the last payload byte. -/
  body : List Byte
deriving DecidableEq, Repr

/-- What a `VALUE` response carries: one byte (`CSUM`) or one bit (`CSVFY`) (R82). -/
inductive Value where
  /-- A checksum byte. -/
  | byte (b : Byte)
  /-- A verdict: 1 valid, 0 not valid. -/
  | bit (v : BitVec 1)
deriving DecidableEq, Repr

/-- The results of Table R82, one constructor for each `rsp_kind`; the reserved kind 7 is never
produced and has no value (U10). -/
inductive Response where
  /-- `NONE`. -/
  | none
  /-- `BYTES`: an encoded frame. -/
  | bytes (F : List Byte)
  /-- `FRAME`: a decoded frame. -/
  | frame (f : Frame)
  /-- `ERR_INVALID_ARGUMENT`. -/
  | errInvalidArgument
  /-- `ERR_CHECKSUM_MISMATCH`. -/
  | errChecksumMismatch
  /-- `ERR_TRUNCATED`. -/
  | errTruncated
  /-- `VALUE`. -/
  | value (v : Value)
deriving DecidableEq, Repr

/-- The three error kinds (R190). Each is a result of the operation that detects it, not a stop. -/
inductive ErrorKind where
  /-- `InvalidArgument`, raised by `ENC` only (R191). -/
  | invalidArgument
  /-- `ChecksumMismatch`, raised by `FEED` only (R192). -/
  | checksumMismatch
  /-- `Truncated`, raised by `ABORT` only (R193). -/
  | truncated
deriving DecidableEq, Repr

/-- One entry of the caller's issue order: an operation issued alone, or any number issued so that they
overlap on this instance (R58, R59). DESIGN CHOICE: the second form (assumption 13). -/
inductive Launch where
  /-- One operation, complete before the next begins. -/
  | single (r : Request)
  /-- Operations in progress at once on this instance, listed in the order issued. -/
  | overlap (rs : List Request)
deriving DecidableEq, Repr

/-- Why the machine stops with a fault. -/
inductive Fault where
  /-- Raised by `FEED` (and what expands to it) in `ReadingBody` when `rx_count` is no index of `RXBUF`.
  Safe: no state a run from reset reaches is such (R64), and the model claims nothing beyond the stop
  (assumption 11). -/
  | rxbufRange
deriving DecidableEq, Repr

/-- Why a step gives an operation no meaning. -/
inductive Refusal where
  /-- Raised by an arm of `exec` whose instruction has no meaning yet. Safe: nothing follows from it. -/
  | notModelled (mnemonic : String)
  /-- Raised by the reserved command codes 6 and 7: the spec says a model refuses them (R81, R182).
  Safe: nothing follows from it. -/
  | reservedCommand (op : BitVec 3)
  /-- Raised by a launch in which two operations that both touch decoder state overlap: the spec says a
  model refuses it (R59, R225). Safe: nothing follows from it. -/
  | overlap
  /-- Raised by a request that is no instruction: bytes handed over as a wire frame that are none
  (assumption 8). Safe: nothing follows from it. -/
  | undecodable (why : DecodeError)
deriving DecidableEq, Repr

/-- The state of one instance. The first seven fields are the elements of Table R37, the whole of the
block's named state (R30); the last two are the model's own (assumptions 1 and 2). -/
structure State where
  /-- `rx_state` (R22). -/
  rxState : RxState
  /-- `high_byte_seen`, the block's one flag (R23, R32). -/
  highByteSeen : Bool
  /-- `len_hi` (R24). -/
  lenHi : BitVec 8
  /-- `declared_len` (R25). -/
  declaredLen : BitVec 16
  /-- `rx_count` (R26). -/
  rxCount : BitVec 17
  /-- `rx_sum` (R27). -/
  rxSum : BitVec 8
  /-- `RXBUF` (R26, Table R50). -/
  rxbuf : Memory
  /-- The operations issued and not yet performed, in the order issued (R58). -/
  pending : List Launch
  /-- The results returned so far, in order: the observation of R237. No operation reads it (R35). -/
  results : List Response
deriving DecidableEq, Repr

/-- The state of a new or reset instance (R37, R181, R220). `lenHi`, `declaredLen` and `rxbuf` are
unspecified there and never read before written: DESIGN CHOICE zero (assumptions 3 and 4). -/
def State.reset : State where
  rxState := .seeking
  highByteSeen := false
  lenHi := 0
  declaredLen := 0
  rxCount := 0
  rxSum := 0
  rxbuf := []
  pending := []
  results := []

end Sys2Proof.Machine
end

