-- ==== Sys2Proof/Machine/Ops.lean ====
section
/-! DEFINITION. The named operations over `RXBUF`, the decoder's registers, results and errors. -/

namespace Sys2Proof.Machine

/-! Byte memory. -/

/-- The cells rise strictly from `lo`, lie inside `RXBUF` (R26) and differ from an unlisted one. -/
def Memory.sortedFrom : Nat → Memory → Bool
  | _, [] => true
  | lo, (x, v) :: m =>
    decide (lo ≤ x) && decide (x < Config.rxBufCap) && decide (v ≠ Memory.unlisted) && Memory.sortedFrom (x + 1) m

/-- The canonical form: equal memories are equal lists. -/
def Memory.wf (m : Memory) : Bool := Memory.sortedFrom 0 m

/-- `MemRead(RXBUF, a, 1)` (R10). -/
def Memory.read : Memory → Nat → Byte
  | [], _ => Memory.unlisted
  | (x, v) :: m, a => if a = x then v else Memory.read m a

/-- `MemWrite(RXBUF, a, 1, b)` (R10), keeping the canonical form. -/
def Memory.write : Memory → Nat → Byte → Memory
  | [], a, b => if b = Memory.unlisted then [] else [(a, b)]
  | (x, v) :: m, a, b =>
    if a < x then (if b = Memory.unlisted then (x, v) :: m else (a, b) :: (x, v) :: m)
    else if a = x then (if b = Memory.unlisted then m else (a, b) :: m)
    else (x, v) :: Memory.write m a b

/-- `RXBUF[0 ..< n]` (R9). -/
def Memory.prefixBytes (m : Memory) (n : Nat) : List Byte := (List.range n).map m.read

/-! Results and errors. -/

/-- The numeric `rsp_kind` of a result (Table R82). -/
def Response.kind : Response → BitVec 3
  | .none => 0
  | .bytes _ => 1
  | .frame _ => 2
  | .errInvalidArgument => 3
  | .errChecksumMismatch => 4
  | .errTruncated => 5
  | .value _ => 6

/-- Whether a result is other than None: what the list of a pseudo-operation keeps (R84). -/
def Response.isSome : Response → Bool
  | .none => false
  | .bytes _ => true
  | .frame _ => true
  | .errInvalidArgument => true
  | .errChecksumMismatch => true
  | .errTruncated => true
  | .value _ => true

/-- The result that reports an error (Table R190, Table R82). -/
def ErrorKind.response : ErrorKind → Response
  | .invalidArgument => .errInvalidArgument
  | .checksumMismatch => .errChecksumMismatch
  | .truncated => .errTruncated

/-- The 2-bit code of `rx_state` (R22). -/
def RxState.code : RxState → BitVec 2
  | .seeking => 0
  | .readingLength => 1
  | .readingBody => 2

/-- The operation's results are given to the caller, after all earlier ones (R58, R237). -/
def State.give (s : State) (rs : List Response) : State := { s with results := s.results ++ rs }

/-! The decoder's registers. -/

/-- `rx_state <- Seeking`; every other register keeps what it held (R146, R153). -/
def State.toSeeking (s : State) : State := { s with rxState := .seeking }

/-- `rx_state <- ReadingLength ; high_byte_seen <- 0` (R141). -/
def State.startLength (s : State) : State := { s with rxState := .readingLength, highByteSeen := false }

/-- `len_hi <- b ; high_byte_seen <- 1` (R142). -/
def State.bufferLenHi (b : Byte) (s : State) : State := { s with lenHi := b, highByteSeen := true }

/-- `declared_len <- (len_hi << 8) | b` (R143). -/
def State.setDeclaredLen (b : Byte) (s : State) : State := { s with declaredLen := assembleLen s.lenHi b }

/-- `rx_state <- ReadingBody ; rx_count <- 0 ; rx_sum <- 0` (R143). -/
def State.enterBody (s : State) : State := { s with rxState := .readingBody, rxCount := 0, rxSum := 0 }

/-- `MemWrite(RXBUF, rx_count, 1, b) ; rx_count <- rx_count + 1 ; rx_sum <- (rx_sum + b) mod 256`
(R145); the address stored to is `rx_count`. -/
def State.storeBody (b : Byte) (s : State) : State :=
  { s with rxbuf := s.rxbuf.write s.rxCount.toNat b, rxCount := s.rxCount + 1, rxSum := accAdd s.rxSum b }

/-- The registers `RST` writes: `len_hi`, `declared_len` and `RXBUF` keep whatever they held (R180). -/
def State.resetDecoder (s : State) : State :=
  { s with rxState := .seeking, highByteSeen := false, rxCount := 0, rxSum := 0 }

/-- `k = declared_len - LEN_BIAS`, computed in `ReadingBody`, where `declared_len > LEN_BIAS` (R144); in a
state no run reaches it is 0 (assumption 12). -/
def State.bodyLen (s : State) : Nat := s.declaredLen.toNat - Config.lenBias

/-- The index of `RXBUF` a `FEED` stores to, if it stores (R145, R164). -/
def State.storeIndex (s : State) : Option Nat :=
  match s.rxState with
  | .seeking => none
  | .readingLength => none
  | .readingBody => some s.rxCount.toNat

/-! Raising an error: the one operation in place of exception entry. Nothing is saved and there is
nothing to return from (R199, R200). -/

/-- The error ends its operation with itself as the result; `InvalidArgument` changes no state, the
other two put the decoder in `Seeking` (R199, Table R190). -/
def State.raise (e : ErrorKind) (s : State) : Response × State :=
  match e with
  | .invalidArgument => (e.response, s)
  | .checksumMismatch => (e.response, s.toSeeking)
  | .truncated => (e.response, s.toSeeking)

/-! The arms of `FEED` (R140). -/

/-- `Seeking` (R141). -/
def feedSeeking (b : Byte) (s : State) : Response × State :=
  if b = Config.delim then (.none, s.startLength) else (.none, s)

/-- `ReadingLength`, second byte, with the silent framing error (R143, R144). -/
def feedLengthLow (b : Byte) (s : State) : Response × State :=
  if (assembleLen s.lenHi b).toNat ≤ Config.lenBias then (.none, (s.setDeclaredLen b).toSeeking)
  else (.none, (s.setDeclaredLen b).enterBody)

/-- `ReadingLength` (R142, R143). -/
def feedLength (b : Byte) (s : State) : Response × State :=
  if s.highByteSeen then feedLengthLow b s else (.none, s.bufferLenHi b)

/-- `ReadingBody` after the store: the frame is not yet whole, or it is verified (R145, R146). -/
def finishBody (s : State) : Response × State :=
  let k := s.bodyLen
  if s.rxCount.toNat < k + 1 then (.none, s)
  else
    let body := s.rxbuf.prefixBytes k
    if verify body (s.rxbuf.read k) then (.frame ⟨body⟩, s.toSeeking) else s.raise .checksumMismatch

/-- `ReadingBody` (R145); an index outside `RXBUF` does not exist (R26, R50; assumption 11). -/
def feedBody (b : Byte) (s : State) : Except Fault (Response × State) :=
  if s.rxCount.toNat < Config.rxBufCap then .ok (finishBody (s.storeBody b)) else .error .rxbufRange

/-- The whole of `FEED` on one byte (R140): its result and the state after it. -/
def feedByte (b : Byte) (s : State) : Except Fault (Response × State) :=
  match s.rxState with
  | .seeking => .ok (feedSeeking b s)
  | .readingLength => .ok (feedLength b s)
  | .readingBody => feedBody b s

/-- The `FEED`s of a sequence, in order: the list of their non-None results and the state after them
(R84, R152). An error is one entry of the list and does not stop the rest. -/
def feedBytes : List Byte → State → Except Fault (List Response × State)
  | [], s => .ok ([], s)
  | b :: S, s =>
    match feedByte b s with
    | .error f => .error f
    | .ok (r, t) =>
      match feedBytes S t with
      | .error f => .error f
      | .ok (rs, u) => .ok (if r.isSome then r :: rs else rs, u)

/-- `FEEDN`: the list becomes the operation's result (R152). -/
def feedAll (S : List Byte) (s : State) : Host.Outcome State Fault Refusal :=
  match feedBytes S s with
  | .error f => .fault f
  | .ok (rs, t) => .next (t.give rs)

/-- `ABORT` (R153). -/
def abortDecoder (s : State) : Response × State :=
  match s.rxState with
  | .seeking => (.none, s)
  | .readingLength => s.raise .truncated
  | .readingBody => s.raise .truncated

/-- `ENC`: both checks before any byte is produced, then the whole frame (R101, R102). -/
def encodeFrame (A P : List Byte) (s : State) : Response × State :=
  if encOperandsBad A P then s.raise .invalidArgument else (.bytes (txFrame A P), s)

/-- An operation that always completes gives its one result (R12). -/
def complete (p : Response × State) : Host.Outcome State Fault Refusal := .next (p.2.give [p.1])

/-! The positional views of a returned frame (R147, Table R76). A view is present only if all its bytes
lie inside the body (R148). -/

/-- `body[lo .. lo + n - 1]`, if it lies inside the body. -/
def Frame.slice (f : Frame) (lo n : Nat) : Option (List Byte) :=
  if lo + n ≤ f.body.length then some ((f.body.drop lo).take n) else none

/-- `frame_type = body[0]`. -/
def Frame.frameType (f : Frame) : Option Byte := f.body[0]?

/-- `frame_id = body[1]`. -/
def Frame.frameId (f : Frame) : Option Byte := f.body[1]?

/-- `address = body[2 .. 9]`. -/
def Frame.address (f : Frame) : Option (List Byte) := f.slice 2 Config.addrLen

/-- `net_addr = body[10 .. 11]`. -/
def Frame.netAddr (f : Frame) : Option (List Byte) := f.slice 10 2

/-- `radius = body[12]`. -/
def Frame.radius (f : Frame) : Option Byte := f.body[12]?

/-- `options = body[13]`. -/
def Frame.options (f : Frame) : Option Byte := f.body[13]?

/-- `payload = body[14 .. k - 1]`, empty when `k = 14`, absent when `k < 14`. -/
def Frame.payload (f : Frame) : Option (List Byte) :=
  if Config.metaLen ≤ f.body.length then some (f.body.drop Config.metaLen) else none

end Sys2Proof.Machine
end

