-- ==== Sys2Proof/Machine/Checksum.lean ====
section
/-! DEFINITION. `CSUM` and `CSVFY` (41_checksum.md), computed with the accumulator as their pseudocode
is. Neither reads or writes state. -/

namespace Sys2Proof.Machine

/-- `CSUM S`: `clear`, `add` of every byte, `final` (R125). -/
def execCsum (S : List Byte) (s : State) : Host.Outcome State Fault Refusal :=
  complete (.value (.byte (accFinal (accOf S))), s)

/-- `CSVFY S, c`: `clear`, `add` of every byte and of `c`, valid if and only if the accumulator is 0xFF
(R126). -/
def execCsvfy (S : List Byte) (c : Byte) (s : State) : Host.Outcome State Fault Refusal :=
  complete (.value (.bit (if accAdd (accOf S) c = 0xFF then 1 else 0)), s)

end Sys2Proof.Machine
end

