-- ==== Sys2Proof/Machine/Control.lean ====
section
/-! DEFINITION. `RST` and the reserved command codes (43_control.md). -/

namespace Sys2Proof.Machine

/-- `RST`: the reset registers are written; the result is always None, even inside a frame (R180). -/
def execRst (s : State) : Host.Outcome State Fault Refusal := complete (.none, s.resetDecoder)

/-- Reserved op 6: no state change, no result, and a model refuses it (R81, R182). -/
def execReserved6 (_ : State) : Host.Outcome State Fault Refusal := .refused (.reservedCommand 6)

/-- Reserved op 7: no state change, no result, and a model refuses it (R81, R182). -/
def execReserved7 (_ : State) : Host.Outcome State Fault Refusal := .refused (.reservedCommand 7)

end Sys2Proof.Machine
end

