-- ==== Sys2Proof/Machine/Decoder.lean ====
section
/-! DEFINITION. The decoder's operations (42_decoder.md): `FEED`, `FEEDN`, `ABORT`, `DECODE`, and the
inbound wire frame. -/

namespace Sys2Proof.Machine

/-- `FEED b` (R140 to R146). -/
def execFeed (b : Byte) (s : State) : Host.Outcome State Fault Refusal :=
  match feedByte b s with
  | .error f => .fault f
  | .ok p => complete p

/-- `ABORT` (R153). -/
def execAbort (s : State) : Host.Outcome State Fault Refusal := complete (abortDecoder s)

/-- `FEEDN S` (R152). -/
def execFeedn (S : List Byte) (s : State) : Host.Outcome State Fault Refusal := feedAll S s

/-- `DECODE S`: `RST`, whose None is no part of the result, then `FEEDN S` (R84, R155). -/
def execDecode (S : List Byte) (s : State) : Host.Outcome State Fault Refusal := feedAll S s.resetDecoder

/-- The inbound frame: its bytes are taken by `FEED` in wire order (R75, R85). DESIGN CHOICE
(assumption 8). -/
def execRxframe (declaredLen : BitVec 16) (tail : List Byte) (s : State) : Host.Outcome State Fault Refusal :=
  feedAll (rxFrame declaredLen tail) s

end Sys2Proof.Machine
end

