-- ==== Sys2Proof/Machine/Encoder.lean ====
section
/-! DEFINITION. `ENC` (40_encoder.md) and the outbound wire frame it produces. -/

namespace Sys2Proof.Machine

/-- `ENC A, P`: the frame, or `InvalidArgument`; no state is read or written (R100 to R103). -/
def execEnc (A P : List Byte) (s : State) : Host.Outcome State Fault Refusal := complete (encodeFrame A P s)

/-- The outbound frame with address `A` and payload `P`: its effect is that of the operation the table
says produces it, whose result is the frame's bytes (R70, R85). DESIGN CHOICE (assumption 8). -/
def execTxreq (A P : List Byte) (s : State) : Host.Outcome State Fault Refusal := complete (encodeFrame A P s)

end Sys2Proof.Machine
end

