-- ==== Sys2Proof/Machine/Dispatch.lean ====
section
/-! DEFINITION. One arm for each constructor of `Instr`. -/

namespace Sys2Proof.Machine

def exec (i : Instr) (s : State) : Host.Outcome State Fault Refusal :=
  match i with
  | .rst => Sys2Proof.Machine.execRst s
  | .enc A P => Sys2Proof.Machine.execEnc A P s
  | .feed b => Sys2Proof.Machine.execFeed b s
  | .abort => Sys2Proof.Machine.execAbort s
  | .csum S => Sys2Proof.Machine.execCsum S s
  | .csvfy S c => Sys2Proof.Machine.execCsvfy S c s
  | .reserved6 => Sys2Proof.Machine.execReserved6 s
  | .reserved7 => Sys2Proof.Machine.execReserved7 s
  | .feedn S => Sys2Proof.Machine.execFeedn S s
  | .decode S => Sys2Proof.Machine.execDecode S s
  | .txreq A P => Sys2Proof.Machine.execTxreq A P s
  | .rxframe declaredLen tail => Sys2Proof.Machine.execRxframe declaredLen tail s

end Sys2Proof.Machine
end

