-- ==== Sys2Proof/Machine/Launch.lean ====
section
/-! DEFINITION. Performing one entry of the caller's issue order (20_memory.md section 5). -/

namespace Sys2Proof.Machine

/-- Whether an operation reads or writes decoder state; `ENC`, `CSUM`, `CSVFY` (and the frame `ENC`
produces) touch none (R20, R59). A reserved code has no effect at all (R182). DESIGN CHOICE: `FEEDN []` counts as an
operation on the decoder although it expands to no `FEED` (R84; assumption 13). -/
def touchesDecoder : Instr → Bool
  | .rst => true
  | .enc _ _ => false
  | .feed _ => true
  | .abort => true
  | .csum _ => false
  | .csvfy _ _ => false
  | .reserved6 => false
  | .reserved7 => false
  | .feedn _ => true
  | .decode _ => true
  | .txreq _ _ => false
  | .rxframe _ _ => true

/-- One operation alone: decoded, then performed. -/
def runRequest (r : Request) (s : State) : Host.Outcome State Fault Refusal :=
  match decode r with
  | .error e => .refused (.undecodable e)
  | .ok i => exec i s

/-- The instructions that requests are, or why the first that is none is none. -/
def decodeAll : List Request → Except DecodeError (List Instr)
  | [] => .ok []
  | r :: rs =>
    match decode r, decodeAll rs with
    | .error e, _ => .error e
    | .ok _, .error e => .error e
    | .ok i, .ok is => .ok (i :: is)

/-- Instructions performed one after another, each on the state left by the one before (R58). -/
def execAll : List Instr → State → Host.Outcome State Fault Refusal
  | [], s => .next s
  | i :: is, s =>
    match exec i s with
    | .next t => execAll is t
    | .fault f => .fault f
    | .refused r => .refused r

/-- Any number of operations in progress at once: refused when two of them touch decoder state (R59,
R225); otherwise none can see another, and their results stand in the order issued (assumption 13). -/
def runOverlap (rs : List Request) (s : State) : Host.Outcome State Fault Refusal :=
  match decodeAll rs with
  | .error e => .refused (.undecodable e)
  | .ok is => if (is.filter touchesDecoder).length ≤ 1 then execAll is s else .refused .overlap

/-- One entry of the issue order. -/
def runLaunch (l : Launch) (s : State) : Host.Outcome State Fault Refusal :=
  match l with
  | .single r => runRequest r s
  | .overlap rs => runOverlap rs s

/-- The next entry is taken from the front of the issue order and performed; with nothing issued the
block is idle and keeps its state (R58, R207; assumption 1). -/
def runNext (s : State) : Host.Outcome State Fault Refusal :=
  match s.pending with
  | [] => .next s
  | l :: rest => runLaunch l { s with pending := rest }

/-- The operation in front of all others issued. -/
def State.issueFirst (s : State) (r : Request) : State := { s with pending := .single r :: s.pending }

end Sys2Proof.Machine
end

