-- ==== Sys2Proof/Machine/Step.lean ====
section
/-! DEFINITION. One step of the machine: the next operation the caller has issued. -/

namespace Sys2Proof.Machine

/-- One atomic operation (R11), the next in the caller's order (R58). -/
def step : State → Host.Outcome State Fault Refusal := runNext

/-- The state in which the instruction whose opcode-table bits are `w` is the next one performed. The
block fetches no instructions (R62): the caller issues it (assumption 1). -/
def State.withFetchWord (s : State) (nbits w : Nat) : State :=
  match tableRequest nbits w with
  | some r => s.issueFirst r
  | none => s

end Sys2Proof.Machine
end

