-- ==== Sys2Proof/Machine/Abstract.lean ====
section
/-! DEFINITION. The decoder's abstract state, the normative form of its data model (10_state.md R21),
its transitions (42_decoder.md R141 to R146, R153) and how the registers map to it (R36). -/

namespace Sys2Proof.Machine

/-- `DecoderState` (R21). -/
inductive DecoderState where
  /-- `Seeking`. -/
  | seeking
  /-- `ReadingLength(high_byte_seen, len_hi)`: the buffered high byte, when it has been seen. -/
  | readingLength (lenHi : Option Byte)
  /-- `ReadingBody(declared_len, buffer)`. -/
  | readingBody (declaredLen : BitVec 16) (buffer : List Byte)
deriving DecidableEq, Repr

/-- `FEED` on the abstract state (R141 to R146). -/
def DecoderState.feed (b : Byte) : DecoderState → Response × DecoderState
  | .seeking => (.none, if b = Config.delim then .readingLength none else .seeking)
  | .readingLength none => (.none, .readingLength (some b))
  | .readingLength (some hi) =>
    (.none, if (assembleLen hi b).toNat ≤ Config.lenBias then .seeking else .readingBody (assembleLen hi b) [])
  | .readingBody declaredLen buffer =>
    let k := declaredLen.toNat - Config.lenBias
    let buffer' := buffer ++ [b]
    if buffer'.length < k + 1 then (.none, .readingBody declaredLen buffer')
    else if verify (buffer'.take k) (buffer'.getD k 0) then (.frame ⟨buffer'.take k⟩, .seeking)
    else (.errChecksumMismatch, .seeking)

/-- `ABORT` on the abstract state (R153). -/
def DecoderState.abort : DecoderState → Response × DecoderState
  | .seeking => (.none, .seeking)
  | .readingLength _ => (.errTruncated, .seeking)
  | .readingBody _ _ => (.errTruncated, .seeking)

/-- `FEEDN` on the abstract state: the non-None results, in order (R152). -/
def DecoderState.feedn : List Byte → DecoderState → List Response × DecoderState
  | [], d => ([], d)
  | b :: S, d =>
    let (r, d') := d.feed b
    let (rs, d'') := DecoderState.feedn S d'
    (if r.isSome then r :: rs else rs, d'')

/-- The abstract state a register state stands for (R36). -/
def State.abs (s : State) : DecoderState :=
  match s.rxState with
  | .seeking => .seeking
  | .readingLength => .readingLength (if s.highByteSeen then some s.lenHi else none)
  | .readingBody => .readingBody s.declaredLen (s.rxbuf.prefixBytes s.rxCount.toNat)

/-- What an instruction returns and does to the abstract state, or nothing for a reserved code. -/
def absExec (i : Instr) (d : DecoderState) : Option (List Response × DecoderState) :=
  match i with
  | .rst => some ([.none], .seeking)
  | .enc A P => some ([if encOperandsBad A P then .errInvalidArgument else .bytes (txFrame A P)], d)
  | .feed b => some ([(d.feed b).1], (d.feed b).2)
  | .abort => some ([d.abort.1], d.abort.2)
  | .csum S => some ([.value (.byte (csum S))], d)
  | .csvfy S c => some ([.value (.bit (if verify S c then 1 else 0))], d)
  | .reserved6 => none
  | .reserved7 => none
  | .feedn S => some (d.feedn S)
  | .decode S => some (DecoderState.seeking.feedn S)
  | .txreq A P => some ([if encOperandsBad A P then .errInvalidArgument else .bytes (txFrame A P)], d)
  | .rxframe declaredLen tail => some (d.feedn (rxFrame declaredLen tail))

end Sys2Proof.Machine
end

