-- ==== Sys2Proof/Safety.lean ====
section
/-! DEFINITION. What holds in every state reachable from reset, and what a run lets its caller observe. -/

namespace Sys2Proof.Machine

/-- The registers' invariant (R36, R26): `RXBUF` is in canonical form, and in `ReadingBody` the declared
length leaves a body, the count has not reached the checksum byte's store, and `rx_sum` is the sum of the
buffered bytes. -/
structure State.Inv (s : State) : Prop where
  /-- Equal buffers are equal data, and every cell is one of `RXBUF`. -/
  canonical : s.rxbuf.wf = true
  /-- `LEN_BIAS + 1 <= declared_len`. -/
  hasBody : s.rxState = .readingBody → Config.lenBias + 1 ≤ s.declaredLen.toNat
  /-- `rx_count <= declared_len - LEN_BIAS`. -/
  countBound : s.rxState = .readingBody → s.rxCount.toNat ≤ s.declaredLen.toNat - Config.lenBias
  /-- `rx_sum = sum(RXBUF[0 ..< rx_count]) mod 256`. -/
  sumBuffered : s.rxState = .readingBody → s.rxSum.toNat = byteSum (s.rxbuf.prefixBytes s.rxCount.toNat) % 256

/-- What a run lets its caller observe: the results in order and the final abstract state (R237). -/
def State.observation (s : State) : List Response × DecoderState := (s.results, s.abs)

/-- A run is complete, in the sense that no frame is pending, exactly in `Seeking` (R237). -/
def State.noFramePending (s : State) : Prop := s.abs = .seeking

/-- The bytes a streaming encoder emits from the frame type on: each byte as it goes into the
accumulator, then the accumulator's `final` (R104). -/
def streamEmit : Byte → List Byte → List Byte
  | acc, [] => [accFinal acc]
  | acc, b :: S => b :: streamEmit (accAdd acc b) S

/-- The result due for the bytes after a frame's length field, which are its body and its checksum byte:
the frame when their sum has low byte 0xFF (R75, R123, R146). -/
def tailResult (tail : List Byte) : Response :=
  if byteSum tail % 256 = 255 then .frame ⟨tail.dropLast⟩ else .errChecksumMismatch

/-- The `rsp_kind`s the opcode table gives an instruction's results (Table R82). -/
def resultKinds : Instr → List (BitVec 3)
  | .rst => [0]
  | .enc _ _ => [1, 3]
  | .feed _ => [0, 2, 4]
  | .abort => [0, 5]
  | .csum _ => [6]
  | .csvfy _ _ => [6]
  | .reserved6 => []
  | .reserved7 => []
  | .feedn _ => [2, 4]
  | .decode _ => [2, 4]
  | .txreq _ _ => [1, 3]
  | .rxframe _ _ => [2, 4]

/-- Two states of one instance between which no sequence of operations can tell (R36). -/
def State.sameView (s t : State) : Prop := s.abs = t.abs ∧ s.pending = t.pending ∧ s.results = t.results

end Sys2Proof.Machine
end

