-- ==== Sys2Proof/Certificates/Slice0/Obligations.lean ====
section
/-! DEFINITION. The statements for the provers, taken from the spec's rules file by file. -/

open Sys2Proof Sys2Proof.Machine

/-! Decoding and encoding. -/

/-- A few command words of Table R80, as 30_encoding.md section 7 and the X series write them. That
`seq0` carries `A` or `S` and `seq1` carries `P` is the model's choice (assumption 6). -/
def Obligations.SpecCommandWordsDecode : Prop :=
  ∀ A P S : List Byte,
    decode (.command 0x000 [] []) = .ok .rst ∧
    decode (.command 0x0FF [] []) = .ok .rst ∧
    decode (.command 0x100 A P) = .ok (.enc A P) ∧
    decode (.command 0x27E [] []) = .ok (.feed 0x7E) ∧
    decode (.command 0x300 [] []) = .ok .abort ∧
    decode (.command 0x400 S []) = .ok (.csum S) ∧
    decode (.command 0x509 S []) = .ok (.csvfy S 0x09) ∧
    decode (.command 0x600 [] []) = .ok .reserved6 ∧
    decode (.command 0x7FF [] []) = .ok .reserved7

/-- `op = word[10:8]` selects the operation of every command word and `imm = word[7:0]` is its byte
operand, ignored where the format has none (Table R80, U9). The two sequence ports are the model's
choice (assumption 6). -/
def Obligations.OpSelectsAndImmIsIgnored : Prop :=
  (∀ w : BitVec 11, w = commandWord (opOf w) (immOf w)) ∧
  ∀ (imm : Byte) (x y : List Byte),
    decode (.command (commandWord 0 imm) x y) = .ok .rst ∧
    decode (.command (commandWord 1 imm) x y) = .ok (.enc x y) ∧
    decode (.command (commandWord 2 imm) x y) = .ok (.feed imm) ∧
    decode (.command (commandWord 3 imm) x y) = .ok .abort ∧
    decode (.command (commandWord 4 imm) x y) = .ok (.csum x) ∧
    decode (.command (commandWord 5 imm) x y) = .ok (.csvfy x imm) ∧
    decode (.command (commandWord 6 imm) x y) = .ok .reserved6 ∧
    decode (.command (commandWord 7 imm) x y) = .ok .reserved7

/-- Decoding an encoded well-formed instruction gives it back, every row of the opcode table, every
operand. The form of a request is the model's choice (assumptions 6, 7 and 8). -/
def Obligations.DecodeEncodeRoundTrip : Prop :=
  ∀ i : Instr, i.wellFormed = true → decode (encode i) = .ok i

/-- What decodes is well formed, and bytes that decode as a wire frame are exactly that frame's encoding:
a wire frame has one reading (Tables R70, R75). The form of a request is the model's choice
(assumption 8). -/
def Obligations.DecodedFramesReencode : Prop :=
  (∀ r i, decode r = .ok i → i.wellFormed = true) ∧
  (∀ F i, decode (.outbound F) = .ok i → encode i = .outbound F) ∧
  (∀ F i, decode (.inbound F) = .ok i → encode i = .inbound F)

/-! Steps, issue order, overlap. The list of issued operations is the model's form of the caller's
order (assumption 1). -/

/-- A step performs the instruction the next request decodes to, on the rest of the issue order; an
undecodable request is refused by name; with nothing issued the block is idle and keeps its state
(60_exceptions.md R207). The issue order is the model's choice (assumption 1), and so is the refusal of an
undecodable request (assumption 8). -/
def Obligations.StepRunsTheDecodedInstruction : Prop :=
  (∀ s r rest i, s.pending = .single r :: rest → decode r = .ok i → step s = exec i { s with pending := rest }) ∧
  (∀ s r rest e, s.pending = .single r :: rest → decode r = .error e → step s = .refused (.undecodable e)) ∧
  (∀ s, s.pending = [] → step s = .next s)

/-- The state after a sequence of operations is the left fold of the operations over the state before it
(20_memory.md section 5): running as many steps as there are requests performs their instructions one
after another. The issue order is the model's choice (assumption 1). -/
def Obligations.RunFoldsTheOperations : Prop :=
  ∀ (rs : List Request) (is : List Instr) (s : State),
    rs.map decode = is.map .ok → s.pending = rs.map .single →
    Host.Core.run core rs.length s = execAll is { s with pending := [] }

/-- Two operations that both touch decoder state may not overlap, whatever else runs at the same time:
such a launch has no meaning. The form of a launch is the model's choice, and so is that the empty chunk
`FEEDN []` counts as such an operation (assumption 13). -/
def Obligations.OverlapOnTheDecoderIsRefused : Prop :=
  ∀ (s : State) (rs : List Request) (rest : List Launch) (i j : Instr) (A B C : List Instr),
    s.pending = .overlap rs :: rest → rs.map decode = (A ++ i :: (B ++ j :: C)).map .ok →
    (∀ k ∈ [i, j], k = .rst ∨ (∃ b, k = .feed b) ∨ k = .abort ∨ (∃ S, k = .feedn S) ∨ (∃ S, k = .decode S) ∨
      ∃ n tail, k = .rxframe n tail) →
    step s = .refused .overlap

/-- An overlap with at most one operation on the decoder completes, however many `ENC`s, `CSUM`s,
`CSVFY`s and outbound frames run with it: each gives its results, in the order issued, and the decoder
is left as that one operation alone leaves it. The form of a launch and the order of the results are
the model's choice (assumption 13). -/
def Obligations.AdmittedOverlapCompletes : Prop :=
  ∀ (s : State) (rs : List Request) (rest : List Launch) (A B : List Instr) (d : Instr), s.Inv →
    s.pending = .overlap rs :: rest → rs.map decode = (A ++ d :: B).map .ok →
    (∀ i ∈ A ++ B, (∃ X P, i = .enc X P) ∨ (∃ S, i = .csum S) ∨ (∃ S c, i = .csvfy S c) ∨ ∃ X P, i = .txreq X P) →
    d ≠ .reserved6 → d ≠ .reserved7 →
    ∃ t u, step s = .next t ∧ execAll (A ++ d :: B) { s with pending := rest } = .next t ∧
      exec d { s with pending := rest } = .next u ∧ { t with results := u.results } = u

/-- An overlap that is admitted has no order to pick: issued in any other order it reaches the same state
with the same results, but for the places of the results. The form of a launch is the model's choice
(assumption 13). -/
def Obligations.AdmittedOverlapHasNoOrder : Prop :=
  ∀ s rs qs rest t, s.pending = .overlap rs :: rest → step s = .next t → rs.Perm qs →
    ∃ t', step { s with pending := .overlap qs :: rest } = .next t' ∧
      { t' with results := t.results } = t ∧ t'.results.Perm t.results

/-! Reset, invariant, refinement. -/

/-- A new instance is in the state `RST` writes: the values Table R37 gives. -/
def Obligations.NewInstanceIsInTheResetState : Prop :=
  State.reset.rxState.code = 0 ∧ State.reset.highByteSeen = false ∧ State.reset.rxCount = 0 ∧
  State.reset.rxSum = 0 ∧ State.reset.abs = .seeking ∧
  ∀ s t, exec .rst s = .next t →
    t.rxState = State.reset.rxState ∧ t.highByteSeen = State.reset.highByteSeen ∧
    t.rxCount = State.reset.rxCount ∧ t.rxSum = State.reset.rxSum

/-- The registers' invariant holds right after reset. That `RXBUF` then lists nothing is the model's
choice (assumption 4). -/
def Obligations.ResetMeetsTheInvariant : Prop := State.reset.Inv

/-- Every step keeps the invariant the spec infers for reachable states (10_state.md section 6), with the
canonical form of `RXBUF`, which is the model's (assumption 4). -/
def Obligations.StepKeepsTheInvariant : Prop :=
  ∀ s t, s.Inv → step s = .next t → t.Inv

/-- From a state that meets the invariant no step faults: the decoder never faults (the spec's inference
in 42_decoder.md section 7). -/
def Obligations.NoStepFaults : Prop :=
  ∀ s f, s.Inv → step s ≠ .fault f

/-- The registers realise the abstract decoder (10_state.md section 6, the spec's inference): every
instruction completes with the results and the next abstract state that the abstract state alone gives,
or is a reserved code and is refused. -/
def Obligations.RegistersRealiseTheAbstractDecoder : Prop :=
  ∀ i s, s.Inv →
    match absExec i s.abs with
    | some (rs, d) =>
      ∃ t, exec i s = .next t ∧ t.abs = d ∧ t.results = s.results ++ rs ∧ t.pending = s.pending
    | none => ∃ op, exec i s = .refused (.reservedCommand op)

/-- Two register states with the same abstract state cannot be told apart by any sequence of operations
(10_state.md section 6, the spec's inference). -/
def Obligations.UnspecifiedRegistersCannotBeSeen : Prop :=
  ∀ (is : List Instr) (s s' : State), s.Inv → s'.Inv → s.sameView s' →
    match execAll is s, execAll is s' with
    | .next t, .next t' => t.sameView t'
    | .refused w, .refused w' => w = w'
    | _, _ => False

/-! The FrameEncoder. -/

/-- The frame `ENC` returns, byte by byte as Table R70 lays it out, and nothing else changed. -/
def Obligations.EncLaysOutTheFrame : Prop :=
  ∀ (A P : List Byte) (s : State), A.length = 8 → P.length ≤ 65520 →
    ∃ F, exec (.enc A P) s = .next { s with results := s.results ++ [.bytes F] } ∧
      F.length = 18 + P.length ∧
      F[0]? = some 0x7E ∧
      F[1]? = some (BitVec.ofNat 8 ((15 + P.length) / 256)) ∧
      F[2]? = some (BitVec.ofNat 8 ((15 + P.length) % 256)) ∧
      F[3]? = some 0x10 ∧ F[4]? = some 0x01 ∧
      (∀ i, i < 8 → F[5 + i]? = A[i]?) ∧
      F[13]? = some 0xFF ∧ F[14]? = some 0xFE ∧ F[15]? = some 0x00 ∧ F[16]? = some 0x00 ∧
      (∀ i, i < P.length → F[17 + i]? = P[i]?) ∧
      F[17 + P.length]? = some (BitVec.ofNat 8 (0xFF - byteSum ((F.drop 3).take (14 + P.length)) % 256))

/-- `ENC` returns `InvalidArgument`, and changes nothing, exactly when one of its two checks fails. -/
def Obligations.EncChecksItsOperands : Prop :=
  ∀ (A P : List Byte) (s : State),
    exec (.enc A P) s = .next { s with results := s.results ++ [.errInvalidArgument] } ↔
      A.length ≠ 8 ∨ 14 + P.length + 1 > 65535

/-- `ENC` reads no state and writes none: for given operands it gives one result in every state and
changes nothing else; the result is a whole frame or the error, never part of a frame. -/
def Obligations.EncIsPure : Prop :=
  ∀ A P : List Byte, ∃ r,
    (∀ s, exec (.enc A P) s = .next { s with results := s.results ++ [r] }) ∧
    (r = .errInvalidArgument ∨ ∃ F, r = .bytes F ∧ F.length = 18 + P.length)

/-- `ENC`, `CSUM`, `CSVFY` and the frame `ENC` produces give one result that no state can change, and
change nothing else. That `TXREQ` has an effect is the model's choice (assumption 8). -/
def Obligations.StatelessOperationsTouchNoState : Prop :=
  (∀ A P : List Byte, ∃ r, ∀ s, exec (.enc A P) s = .next { s with results := s.results ++ [r] }) ∧
  (∀ A P : List Byte, ∃ r, ∀ s, exec (.txreq A P) s = .next { s with results := s.results ++ [r] }) ∧
  (∀ S : List Byte, ∃ r, ∀ s, exec (.csum S) s = .next { s with results := s.results ++ [r] }) ∧
  (∀ (S : List Byte) (c : Byte), ∃ r, ∀ s, exec (.csvfy S c) s = .next { s with results := s.results ++ [r] })

/-- Every encoded frame: its length field is three less than its size, and its body and checksum sum to
0xFF modulo 256 (the spec's inference in 40_encoder.md section 1). -/
def Obligations.EncodedFrameSumsToFF : Prop :=
  ∀ (A P F : List Byte) (s : State), exec (.enc A P) s = .next { s with results := s.results ++ [.bytes F] } →
    (F.getD 1 0).toNat * 256 + (F.getD 2 0).toNat = F.length - 3 ∧
    byteSum (F.drop 3) % 256 = 0xFF

/-- Different operands give different frames (the spec's inference in 40_encoder.md section 1). -/
def Obligations.EncIsInjective : Prop :=
  ∀ (A P A' P' F : List Byte) (s s' : State),
    exec (.enc A P) s = .next { s with results := s.results ++ [.bytes F] } →
    exec (.enc A' P') s' = .next { s' with results := s'.results ++ [.bytes F] } → A = A' ∧ P = P'

/-- A streaming encoder, which adds each byte from the frame type on into the accumulator as it emits it
and emits `final` last, produces the bytes `ENC` returns (the spec's inference in 40_encoder.md
section 1). -/
def Obligations.StreamingEncoderAgrees : Prop :=
  ∀ (A P : List Byte) (s : State), A.length = 8 → P.length ≤ 65520 →
    exec (.enc A P) s = .next { s with results := s.results ++
      [.bytes ([0x7E, lenHiByte (15 + P.length), lenLoByte (15 + P.length)] ++
        streamEmit accClear ([0x10, 0x01] ++ A ++ [0xFF, 0xFE, 0x00, 0x00] ++ P))] }

/-- An outbound frame completes with its own bytes, which match the `TXREQ` row's pattern, read back as
the same frame, and are what `ENC` returns. That the row is performed is the model's choice
(assumption 8). -/
def Obligations.TxreqIsTheFrameEncProduces : Prop :=
  ∀ (A P : List Byte) (s : State), (Instr.txreq A P).wellFormed = true →
    ∃ F, exec (.txreq A P) s = .next { s with results := s.results ++ [.bytes F] } ∧
      exec (.enc A P) s = .next { s with results := s.results ++ [.bytes F] } ∧
      matchesPattern txreqPattern F = true ∧ decode (.outbound F) = .ok (.txreq A P)

/-! The checksum unit. -/

/-- `CSUM S` returns `0xFF - (sum(S) mod 256)` and changes nothing else. -/
def Obligations.CsumReturnsTheChecksum : Prop :=
  ∀ (S : List Byte) (s : State),
    exec (.csum S) s =
      .next { s with results := s.results ++ [.value (.byte (BitVec.ofNat 8 (0xFF - byteSum S % 256)))] }

/-- The result of `CSUM` does not depend on the order of the bytes. -/
def Obligations.CsumIgnoresByteOrder : Prop :=
  ∀ (S T : List Byte) (s : State), S.Perm T → exec (.csum S) s = exec (.csum T) s

/-- `CSVFY S, c` returns 1 exactly when the sum of `S` and `c` has low byte 0xFF, else 0, and changes
nothing else. -/
def Obligations.CsvfyReturnsTheVerdict : Prop :=
  ∀ (S : List Byte) (c : Byte) (s : State),
    exec (.csvfy S c) s =
      .next { s with results := s.results ++
        [.value (.bit (if (byteSum S + c.toNat) % 256 = 0xFF then 1 else 0))] }

/-- Exactly one byte verifies a sequence: the one `CSUM` returns (the spec's inference in
41_checksum.md section 1). -/
def Obligations.CsvfyAcceptsOnlyTheCsumByte : Prop :=
  ∀ (S : List Byte) (c : Byte) (s : State),
    exec (.csvfy S c) s = .next { s with results := s.results ++ [.value (.bit 1)] } ↔
      exec (.csum S) s = .next { s with results := s.results ++ [.value (.byte c)] }

/-- Every change of one byte, of the covered range or of the checksum, is detected (the spec's inference
in 41_checksum.md section 4). -/
def Obligations.SingleByteErrorsAreDetected : Prop :=
  ∀ (S : List Byte) (c y : Byte) (n : Nat) (s : State),
    exec (.csvfy S c) s = .next { s with results := s.results ++ [.value (.bit 1)] } →
    (n < S.length → S[n]? ≠ some y →
      exec (.csvfy (S.set n y) c) s = .next { s with results := s.results ++ [.value (.bit 0)] }) ∧
    (y ≠ c → exec (.csvfy S y) s = .next { s with results := s.results ++ [.value (.bit 0)] })

/-! The FrameDecoder: `FEED`, arm by arm. -/

/-- In `Seeking` a delimiter opens a frame and any other byte changes nothing. -/
def Obligations.FeedInSeeking : Prop :=
  ∀ (b : Byte) (s : State), s.rxState = .seeking →
    (b = 0x7E → exec (.feed b) s =
      .next { s with rxState := .readingLength, highByteSeen := false, results := s.results ++ [.none] }) ∧
    (b ≠ 0x7E → exec (.feed b) s = .next { s with results := s.results ++ [.none] })

/-- In `ReadingLength` the first byte, whatever it is, is buffered as the length's high byte. -/
def Obligations.FeedTakesTheHighLengthByte : Prop :=
  ∀ (b : Byte) (s : State), s.rxState = .readingLength → s.highByteSeen = false →
    exec (.feed b) s = .next { s with lenHi := b, highByteSeen := true, results := s.results ++ [.none] }

/-- In `ReadingLength` the second byte, whatever it is, completes the declared length; a length with no
body is the silent framing error, any other enters `ReadingBody` with an empty buffer. -/
def Obligations.FeedTakesTheLowLengthByte : Prop :=
  ∀ (b : Byte) (s : State), s.rxState = .readingLength → s.highByteSeen = true →
    (s.lenHi.toNat * 256 + b.toNat ≤ 1 → exec (.feed b) s =
      .next { s with declaredLen := BitVec.ofNat 16 (s.lenHi.toNat * 256 + b.toNat), rxState := .seeking,
                     results := s.results ++ [.none] }) ∧
    (1 < s.lenHi.toNat * 256 + b.toNat → exec (.feed b) s =
      .next { s with declaredLen := BitVec.ofNat 16 (s.lenHi.toNat * 256 + b.toNat), rxState := .readingBody,
                     rxCount := 0, rxSum := 0, results := s.results ++ [.none] })

/-- In `ReadingBody` every byte before the checksum byte is stored at `RXBUF[rx_count]`, counted and
summed; every other byte of `RXBUF` and every other register is as before. -/
def Obligations.FeedBuffersABodyByte : Prop :=
  ∀ (b : Byte) (s : State), s.rxbuf.wf = true → s.rxState = .readingBody →
    s.rxCount.toNat + 1 < s.declaredLen.toNat - 1 + 1 →
    ∃ t, exec (.feed b) s = .next t ∧
      t = { s with rxbuf := t.rxbuf, rxCount := s.rxCount + 1, rxSum := s.rxSum + b,
                   results := s.results ++ [.none] } ∧
      t.rxCount.toNat = s.rxCount.toNat + 1 ∧
      t.rxbuf.read s.rxCount.toNat = b ∧
      ∀ a, a ≠ s.rxCount.toNat → t.rxbuf.read a = s.rxbuf.read a

/-- The `FEED` of the checksum byte finishes the frame: the verdict is over the `k` buffered bytes and the
byte just fed, `rx_sum` gives the same verdict, and the decoder is in `Seeking` either way. -/
def Obligations.FeedFinishesTheFrame : Prop :=
  ∀ (b : Byte) (s : State), s.Inv → s.rxState = .readingBody →
    s.rxCount.toNat = s.declaredLen.toNat - 1 →
    ∃ t, exec (.feed b) s = .next t ∧
      t = { s with rxState := .seeking, rxbuf := t.rxbuf, rxCount := s.rxCount + 1, rxSum := s.rxSum + b,
                   results := s.results ++
                     [if (byteSum (s.rxbuf.prefixBytes (s.declaredLen.toNat - 1)) + b.toNat) % 256 = 0xFF then
                        .frame ⟨s.rxbuf.prefixBytes (s.declaredLen.toNat - 1)⟩
                      else .errChecksumMismatch] } ∧
      (t.rxSum = 0xFF ↔
        (byteSum (s.rxbuf.prefixBytes (s.declaredLen.toNat - 1)) + b.toNat) % 256 = 0xFF) ∧
      t.rxbuf.read s.rxCount.toNat = b ∧
      ∀ a, a ≠ s.rxCount.toNat → t.rxbuf.read a = s.rxbuf.read a

/-- `FEED` is total: in every state that meets the invariant every byte completes with exactly one
result, and never with `Truncated` (the spec's inference in 42_decoder.md section 7). -/
def Obligations.FeedIsTotal : Prop :=
  ∀ (b : Byte) (s : State), s.Inv →
    ∃ r t, exec (.feed b) s = .next t ∧ t.results = s.results ++ [r] ∧
      (r = .none ∨ (∃ f, r = .frame f) ∨ r = .errChecksumMismatch)

/-- The model's one fault: `FEED` stops exactly in `ReadingBody` with an `rx_count` that is no index of
`RXBUF`, which no run reaches. The model's choice (assumption 11). -/
def Obligations.FeedStopsOnlyOutsideRxbuf : Prop :=
  ∀ (b : Byte) (s : State) (f : Fault),
    exec (.feed b) s = .fault f ↔ f = .rxbufRange ∧ s.rxState = .readingBody ∧ 65536 ≤ s.rxCount.toNat

/-- What `FEED` leaves unchanged, in every state in which it completes: a register changes only in the
arm that writes it (`rx_state` on a delimiter in `Seeking`, on the low length byte and on the checksum
byte), and every byte of `RXBUF` but the one stored is as before. -/
def Obligations.FeedFrameCondition : Prop :=
  ∀ (b : Byte) (s t : State), exec (.feed b) s = .next t →
    t.pending = s.pending ∧ (∃ r, t.results = s.results ++ [r]) ∧
    (¬(s.rxState = .readingLength ∧ s.highByteSeen = false) → t.lenHi = s.lenHi) ∧
    (¬(s.rxState = .readingLength ∧ s.highByteSeen = true) → t.declaredLen = s.declaredLen) ∧
    (¬(s.rxState = .seeking ∧ b = 0x7E) → ¬(s.rxState = .readingLength ∧ s.highByteSeen = false) →
      t.highByteSeen = s.highByteSeen) ∧
    (s.rxState ≠ .readingBody → ¬(s.rxState = .readingLength ∧ s.highByteSeen = true) →
      t.rxCount = s.rxCount ∧ t.rxSum = s.rxSum) ∧
    (s.rxState = .seeking → b ≠ 0x7E → t.rxState = .seeking) ∧
    (s.rxState = .readingLength → s.highByteSeen = false → t.rxState = .readingLength) ∧
    (s.rxState = .readingBody → s.rxCount.toNat + 1 < s.declaredLen.toNat - 1 + 1 → t.rxState = .readingBody) ∧
    ∀ a, s.storeIndex ≠ some a → t.rxbuf.read a = s.rxbuf.read a

/-- No frame is ever returned unchecked: a `Frame` comes only from the `FEED` of a checksum byte that
verifies the whole buffered body, and leaves the decoder in `Seeking` (the spec's inference in
42_decoder.md section 7). -/
def Obligations.FramesAreAlwaysVerified : Prop :=
  ∀ (b : Byte) (s t : State) (f : Frame), s.Inv → exec (.feed b) s = .next t →
    t.results = s.results ++ [.frame f] →
    s.rxState = .readingBody ∧ f.body = s.rxbuf.prefixBytes s.rxCount.toNat ∧
    f.body.length = s.declaredLen.toNat - 1 ∧ (byteSum f.body + b.toNat) % 256 = 0xFF ∧ t.abs = .seeking

/-- Every store of `FEED` lies inside `RXBUF`, at index 65534 or below: no `FEED` changes a byte above
(the spec's inference in 20_memory.md section 6). -/
def Obligations.StoresStayInsideRxbuf : Prop :=
  (∀ (s : State) (a : Nat), s.Inv → s.storeIndex = some a → a ≤ 65534) ∧
  ∀ (b : Byte) (s t : State) (a : Nat), s.Inv → exec (.feed b) s = .next t → 65534 < a →
    t.rxbuf.read a = s.rxbuf.read a

/-! The FrameDecoder: chunks and whole frames. -/

/-- `FEEDN S` is the `FEED`s of its bytes in order, and its result is the list of their non-None results;
a chunk may be cut in two; no command word is a `FEEDN`. -/
def Obligations.FeednIsItsFeeds : Prop :=
  (∀ (w : BitVec 11) (x y S : List Byte), decode (.command w x y) ≠ .ok (.feedn S)) ∧
  (∀ (S : List Byte) (s : State), s.Inv →
    ∃ t rs, execAll (S.map .feed) s = .next t ∧ t.results = s.results ++ rs ∧
      exec (.feedn S) s = .next { t with results := s.results ++ rs.filter Response.isSome }) ∧
  (∀ (S T : List Byte) (s : State),
    exec (.feedn (S ++ T)) s = execAll [.feedn S, .feedn T] s)

/-- How a stream is cut into chunks has no effect (20_memory.md section 6). -/
def Obligations.ChunkBoundariesDoNotMatter : Prop :=
  ∀ (Ss : List (List Byte)) (s : State), execAll (Ss.map .feedn) s = exec (.feedn Ss.flatten) s

/-- What a chunk leaves unchanged when it completes: the issue order, the results before it, and every
byte of `RXBUF` that no `FEED` of it stores to. The same for `DECODE` and for an inbound frame, whose
meaning is the model's choice (assumption 8). -/
def Obligations.ChunkFrameCondition : Prop :=
  (∀ (S : List Byte) (s t : State), exec (.feedn S) s = .next t →
    t.pending = s.pending ∧ s.results <+: t.results ∧
    ∀ a, (∀ p b q u, S = p ++ b :: q → exec (.feedn p) s = .next u → u.storeIndex ≠ some a) →
      t.rxbuf.read a = s.rxbuf.read a) ∧
  (∀ (S : List Byte) (s t : State), exec (.decode S) s = .next t →
    t.pending = s.pending ∧ s.results <+: t.results ∧
    ∀ a, (∀ p b q u, S = p ++ b :: q → exec (.decode p) s = .next u → u.storeIndex ≠ some a) →
      t.rxbuf.read a = s.rxbuf.read a) ∧
  (∀ (declaredLen : BitVec 16) (tail : List Byte) (s t : State), exec (.rxframe declaredLen tail) s = .next t →
    t.pending = s.pending ∧ s.results <+: t.results ∧
    ∀ a, (∀ p b q u, rxFrame declaredLen tail = p ++ b :: q → exec (.feedn p) s = .next u →
        u.storeIndex ≠ some a) → t.rxbuf.read a = s.rxbuf.read a)

/-- `DECODE S` is `RST` and then `FEEDN S`, with the `FEEDN`'s results; it completes from every state, and
what it returns and the abstract state it reaches do not depend on what the decoder held. -/
def Obligations.DecodeStartsAfresh : Prop :=
  (∀ (S : List Byte) (s : State),
    ∃ u, exec .rst s = .next u ∧ exec (.decode S) s = exec (.feedn S) { u with results := s.results }) ∧
  (∀ (S : List Byte) (s s' : State), s.rxbuf.wf = true → s'.rxbuf.wf = true →
    ∃ rs t t', exec (.decode S) s = .next t ∧ exec (.decode S) s' = .next t' ∧
      t.results = s.results ++ rs ∧ t'.results = s'.results ++ rs ∧ t.abs = t'.abs)

/-- Every instruction that stands for core operations does what they do one after another, and returns
the same results but for the Nones (30_encoding.md section 7). The expansion of a wire frame is the
model's choice (assumption 8). -/
def Obligations.ExpansionsAgree : Prop :=
  ∀ (i : Instr) (s t : State), execAll (expand i) s = .next t →
    ∃ rs qs, t.results = s.results ++ rs ∧ exec i s = .next { t with results := s.results ++ qs } ∧
      qs.filter Response.isSome = rs.filter Response.isSome

/-- A whole inbound frame taken in `Seeking` completes, gives its one result and ends in `Seeking`; a
frame with a degenerate length gives none (30_encoding.md section 2). That the row is performed is the
model's choice (assumption 8). -/
def Obligations.InboundFrameGivesItsResult : Prop :=
  ∀ (declaredLen : BitVec 16) (tail : List Byte) (s : State),
    (Instr.rxframe declaredLen tail).wellFormed = true → s.rxbuf.wf = true → s.rxState = .seeking →
    ∃ t, exec (.rxframe declaredLen tail) s = .next t ∧ t.abs = .seeking ∧
      (declaredLen.toNat ≤ 1 → t.results = s.results) ∧
      (1 < declaredLen.toNat → t.results = s.results ++ [tailResult tail])

/-- A frame gives no result before its last byte, and until then the decoder is inside it (the spec's
inference in 42_decoder.md section 7). -/
def Obligations.NoResultBeforeTheLastByte : Prop :=
  ∀ (declaredLen : BitVec 16) (tail : List Byte) (n : Nat) (s : State),
    (Instr.rxframe declaredLen tail).wellFormed = true → 1 < declaredLen.toNat →
    s.rxbuf.wf = true → s.rxState = .seeking → 0 < n → n < 3 + tail.length →
    ∃ t, exec (.feedn ((rxFrame declaredLen tail).take n)) s = .next t ∧
      t.results = s.results ∧ t.abs ≠ .seeking

/-- Round trip: decoding what `ENC` returned gives exactly one frame, with the operands in its views and
the decoder in `Seeking`, from any state by `DECODE` and from `Seeking` by `FEEDN` (the spec's inference
in 42_decoder.md section 7). -/
def Obligations.DecodeOfEncodedFrame : Prop :=
  ∀ (A P : List Byte) (s : State), A.length = 8 → P.length ≤ 65520 → s.rxbuf.wf = true →
    ∃ F f t, exec (.enc A P) s = .next { s with results := s.results ++ [.bytes F] } ∧
      exec (.decode F) s = .next t ∧ t.results = s.results ++ [.frame f] ∧ t.abs = .seeking ∧
      (s.rxState = .seeking →
        ∃ t', exec (.feedn F) s = .next t' ∧ t'.results = s.results ++ [.frame f] ∧ t'.abs = .seeking) ∧
      f.frameType = some 0x10 ∧ f.frameId = some 0x01 ∧ f.address = some A ∧ f.netAddr = some [0xFF, 0xFE] ∧
      f.radius = some 0x00 ∧ f.options = some 0x00 ∧ f.payload = some P

/-- Garbage without a delimiter before a frame changes nothing (the spec's inference in 42_decoder.md
section 7). -/
def Obligations.GarbageIsSkipped : Prop :=
  ∀ (G F : List Byte) (s : State), s.rxState = .seeking → (0x7E : Byte) ∉ G →
    exec (.feedn (G ++ F)) s = exec (.feedn F) s

/-- Frames back to back, with garbage free of delimiters before each, give their results in order, and a
frame whose checksum fails does not disturb the next (the spec's inference in 42_decoder.md section 7). -/
def Obligations.BackToBackFrames : Prop :=
  ∀ (fs : List (List Byte × BitVec 16 × List Byte)) (s : State), s.rxbuf.wf = true → s.rxState = .seeking →
    (∀ f ∈ fs, (0x7E : Byte) ∉ f.1 ∧ 1 < f.2.1.toNat ∧ f.2.2.length = f.2.1.toNat) →
    ∃ t, exec (.feedn (fs.flatMap fun f => f.1 ++ rxFrame f.2.1 f.2.2)) s = .next t ∧
      t.results = s.results ++ fs.map (fun f => tailResult f.2.2) ∧ t.abs = .seeking

/-- Changing one byte of an encoded frame from the frame type on, one flipped bit in particular, is always
reported as `ChecksumMismatch` and nothing else (the spec's inference in 42_decoder.md section 7). -/
def Obligations.DamagedFrameIsReported : Prop :=
  ∀ (A P F : List Byte) (n : Nat) (y : Byte) (s : State), s.rxbuf.wf = true →
    exec (.enc A P) s = .next { s with results := s.results ++ [.bytes F] } →
    3 ≤ n → n < F.length → F[n]? ≠ some y →
    ∃ t, exec (.decode (F.set n y)) s = .next t ∧
      t.results = s.results ++ [.errChecksumMismatch] ∧ t.abs = .seeking

/-- The positional map of the body (Table R76), byte by byte, and when each view is present: exactly when
all its bytes lie inside the body. With every view present no byte of the body is lost. -/
def Obligations.ViewsAreThePositionalMap : Prop :=
  ∀ f : Frame,
    f.frameType = f.body[0]? ∧ f.frameId = f.body[1]? ∧
    (∀ A, f.address = some A → A.length = 8 ∧ ∀ i, i < 8 → A[i]? = f.body[2 + i]?) ∧
    (∀ N, f.netAddr = some N → N.length = 2 ∧ ∀ i, i < 2 → N[i]? = f.body[10 + i]?) ∧
    f.radius = f.body[12]? ∧ f.options = f.body[13]? ∧
    (∀ P, f.payload = some P → P.length = f.body.length - 14 ∧ ∀ i : Nat, P[i]? = f.body[14 + i]?) ∧
    (f.frameType.isSome ↔ 1 ≤ f.body.length) ∧ (f.frameId.isSome ↔ 2 ≤ f.body.length) ∧
    (f.address.isSome ↔ 10 ≤ f.body.length) ∧ (f.netAddr.isSome ↔ 12 ≤ f.body.length) ∧
    (f.radius.isSome ↔ 13 ≤ f.body.length) ∧ (f.options.isSome ↔ 14 ≤ f.body.length) ∧
    (f.payload.isSome ↔ 14 ≤ f.body.length) ∧
    ∀ ft fi A N r o P, f.frameType = some ft → f.frameId = some fi → f.address = some A → f.netAddr = some N →
      f.radius = some r → f.options = some o → f.payload = some P → f.body = [ft, fi] ++ A ++ N ++ [r, o] ++ P

/-- A returned frame has at least its frame type and at most 65534 bytes (42_decoder.md section 2). -/
def Obligations.ReturnedBodiesAreNeverEmpty : Prop :=
  ∀ (i : Instr) (s t : State) (rs : List Response) (f : Frame), s.Inv → exec i s = .next t →
    t.results = s.results ++ rs → Response.frame f ∈ rs → 1 ≤ f.body.length ∧ f.body.length ≤ 65534

/-! Timeout, reset, reserved codes, errors. -/

/-- `ABORT`, command code 3, does nothing in `Seeking` and returns None; elsewhere it drops the partial
frame and returns `Truncated`; it writes no other register. -/
def Obligations.AbortReportsATruncatedFrame : Prop :=
  (∀ imm : Byte, decode (.command (commandWord 3 imm) [] []) = .ok .abort) ∧
  ∀ s : State,
    (s.rxState = .seeking → exec .abort s = .next { s with results := s.results ++ [.none] }) ∧
    (s.rxState ≠ .seeking →
      exec .abort s = .next { s with rxState := .seeking, results := s.results ++ [.errTruncated] })

/-- `RST`, command code 0, writes four registers and returns None in every state; the rest keeps what it
held, and the abstract state is that of a new instance. -/
def Obligations.RstResetsTheDecoder : Prop :=
  (∀ imm : Byte, decode (.command (commandWord 0 imm) [] []) = .ok .rst) ∧
  ∀ s : State, ∃ t, exec .rst s = .next t ∧
    t = { s with rxState := .seeking, highByteSeen := false, rxCount := 0, rxSum := 0,
                 results := s.results ++ [.none] } ∧
    t.abs = State.reset.abs

/-- A command word whose `op` is 6 or 7 is refused, whatever its other bits and whatever stands beside
it. -/
def Obligations.ReservedCodesAreRefused : Prop :=
  (∀ s, exec .reserved6 s = .refused (.reservedCommand 6) ∧ exec .reserved7 s = .refused (.reservedCommand 7)) ∧
  ∀ (w : BitVec 11) (x y : List Byte),
    (opOf w = 6 → decode (.command w x y) = .ok .reserved6) ∧
    (opOf w = 7 → decode (.command w x y) = .ok .reserved7)

/-- Every operation may be issued in every state: each of the six completes with one result in every
state that meets the invariant, and only `ENC` checks its operands. -/
def Obligations.EveryOperationCompletes : Prop :=
  ∀ (i : Instr) (s : State), s.Inv → expand i = [i] → i ≠ .reserved6 → i ≠ .reserved7 →
    ∃ r t, exec i s = .next t ∧ t.results = s.results ++ [r] ∧
      (r = .errInvalidArgument → ∃ A P, i = .enc A P)

/-- Each operation returns only the kinds of result the opcode table gives it, after all earlier results:
`ENC` can raise only `InvalidArgument`, `FEED` only `ChecksumMismatch`, `ABORT` only `Truncated`. -/
def Obligations.ResultsByOperation : Prop :=
  ∀ (i : Instr) (s t : State), exec i s = .next t →
    ∃ rs, t.results = s.results ++ rs ∧ (∀ r ∈ rs, r.kind ∈ resultKinds i) ∧
      (expand i = [i] → rs.length = 1)

/-- What an error does in place of exception entry (60_exceptions.md section 4, the spec's inference):
`InvalidArgument` changes no register, the other two change `rx_state` to `Seeking`, and the block is
ready at once. -/
def Obligations.ErrorsLeaveTheBlockReady : Prop :=
  ∀ (i : Instr) (e : ErrorKind) (s t : State), expand i = [i] → exec i s = .next t →
    t.results = s.results ++ [e.response] →
    (e = .invalidArgument → { t with results := s.results } = s) ∧
    (e ≠ .invalidArgument → t.abs = .seeking ∧ s.abs ≠ .seeking)
end

