-- ==== Sys2Proof/Laws/Flags.lean ====
section
/-! SUPPORT. The checksum's arithmetic and the length field's, as facts about natural numbers. -/

namespace Sys2Proof.Machine

@[simp] theorem byteSum_nil : byteSum [] = 0 := rfl

@[simp] theorem byteSum_cons (b : Byte) (S : List Byte) : byteSum (b :: S) = b.toNat + byteSum S := rfl

theorem byteSum_append (S T : List Byte) : byteSum (S ++ T) = byteSum S + byteSum T := by
  induction S with
  | nil => simp
  | cons b S ih => simp [ih]; omega

theorem byteSum_perm {S T : List Byte} (h : S.Perm T) : byteSum S = byteSum T := by
  induction h with
  | nil => rfl
  | cons b _ ih => simp [ih]
  | swap a b S => simp; omega
  | trans _ _ ih ih' => exact ih.trans ih'

theorem csum_toNat (S : List Byte) : (csum S).toNat = 255 - byteSum S % 256 := by
  simp only [csum, BitVec.toNat_ofNat]
  omega

theorem accAdd_toNat (acc b : Byte) : (accAdd acc b).toNat = (acc.toNat + b.toNat) % 256 := by
  simp [accAdd]

theorem accFold_toNat (S : List Byte) (acc : Byte) :
    (S.foldl accAdd acc).toNat = (acc.toNat + byteSum S) % 256 := by
  induction S generalizing acc with
  | nil => simp [Nat.mod_eq_of_lt acc.isLt]
  | cons b S ih => rw [List.foldl_cons, ih, accAdd_toNat, byteSum_cons]; omega

/-- The accumulator holds the sum of the bytes added, modulo 256. -/
theorem accOf_toNat (S : List Byte) : (accOf S).toNat = byteSum S % 256 := by
  simp [accOf, accFold_toNat, accClear]

/-- `final` gives the checksum. -/
theorem accFinal_accOf (S : List Byte) : accFinal (accOf S) = csum S := by
  apply BitVec.eq_of_toNat_eq
  rw [csum_toNat, accFinal, BitVec.toNat_sub, accOf_toNat]
  have := Nat.mod_lt (byteSum S) (show 0 < 256 by decide)
  change (2 ^ 8 - byteSum S % 256 + 255) % 2 ^ 8 = 255 - byteSum S % 256
  omega

/-- The verdict depends only on the sum of all the bytes. -/
theorem verify_eq_true_iff (body : List Byte) (c : Byte) :
    verify body c = true ↔ (byteSum body + c.toNat) % 256 = 255 := by
  have h : ∀ x : Nat, x &&& 255 = x % 256 := fun x => Nat.and_two_pow_sub_one_eq_mod x 8
  simp [verify, h]

/-- The verdict is the accumulator's. -/
theorem verify_eq_true_iff_acc (body : List Byte) (c : Byte) :
    verify body c = true ↔ accAdd (accOf body) c = 0xFF := by
  rw [verify_eq_true_iff, ← BitVec.toNat_inj, accAdd_toNat, accOf_toNat]
  simp

/-- Exactly one byte verifies a body. -/
theorem verify_eq_true_iff_csum (body : List Byte) (c : Byte) : verify body c = true ↔ c = csum body := by
  rw [verify_eq_true_iff, ← BitVec.toNat_inj, csum_toNat]
  have := c.isLt
  omega

theorem lenHiByte_toNat (L : Nat) : (lenHiByte L).toNat = L / 256 % 256 := by
  have h : ∀ x : Nat, x &&& 255 = x % 256 := fun x => Nat.and_two_pow_sub_one_eq_mod x 8
  simp [lenHiByte, h, Nat.shiftRight_eq_div_pow]

theorem lenLoByte_toNat (L : Nat) : (lenLoByte L).toNat = L % 256 := by
  have h : ∀ x : Nat, x &&& 255 = x % 256 := fun x => Nat.and_two_pow_sub_one_eq_mod x 8
  simp [lenLoByte, h]

theorem assembleLen_toNat (hi lo : Byte) : (assembleLen hi lo).toNat = hi.toNat * 256 + lo.toNat := by
  have h1 := hi.isLt
  have h2 := lo.isLt
  have h3 : (hi.setWidth 16 <<< 8 : BitVec 16).toNat = hi.toNat <<< 8 := by
    rw [BitVec.toNat_shiftLeft, BitVec.toNat_setWidth, Nat.mod_eq_of_lt (by omega : hi.toNat < 2 ^ 16),
      Nat.shiftLeft_eq]
    omega
  have h4 : (lo.setWidth 16 : BitVec 16).toNat = lo.toNat := by
    rw [BitVec.toNat_setWidth, Nat.mod_eq_of_lt (by omega)]
  rw [assembleLen, BitVec.toNat_or, h3, h4, ← Nat.shiftLeft_add_eq_or_of_lt h2, Nat.shiftLeft_eq]

/-- The decoder reads the length the encoder wrote. -/
theorem assembleLen_bytes (L : Nat) (h : L < 65536) :
    (assembleLen (lenHiByte L) (lenLoByte L)).toNat = L := by
  rw [assembleLen_toNat, lenHiByte_toNat, lenLoByte_toNat]
  omega

/-- A 16-bit length survives its two bytes. -/
theorem assembleLen_bytes_bitvec (L : BitVec 16) :
    assembleLen (lenHiByte L.toNat) (lenLoByte L.toNat) = L :=
  BitVec.eq_of_toNat_eq (assembleLen_bytes L.toNat L.isLt)

theorem lenHiByte_assembleLen (hi lo : Byte) : lenHiByte (assembleLen hi lo).toNat = hi := by
  apply BitVec.eq_of_toNat_eq
  rw [lenHiByte_toNat, assembleLen_toNat]
  have := hi.isLt
  have := lo.isLt
  omega

theorem lenLoByte_assembleLen (hi lo : Byte) : lenLoByte (assembleLen hi lo).toNat = lo := by
  apply BitVec.eq_of_toNat_eq
  rw [lenLoByte_toNat, assembleLen_toNat]
  have := lo.isLt
  omega

theorem txBody_length (A P : List Byte) : (txBody A P).length = A.length + 6 + P.length := by
  simp [txBody, Config.netAddr]
  omega

theorem txFrame_length (A P : List Byte) : (txFrame A P).length = A.length + 10 + P.length := by
  simp [txFrame, txBody_length]
  omega

theorem rxFrame_length (declaredLen : BitVec 16) (tail : List Byte) :
    (rxFrame declaredLen tail).length = 3 + tail.length := by
  simp [rxFrame]
  omega

/-- The operand checks in terms of the largest payload. -/
theorem encOperandsBad_eq_false_iff (A P : List Byte) :
    encOperandsBad A P = false ↔ A.length = Config.addrLen ∧ P.length ≤ Config.maxPayload := by
  rw [encOperandsBad, Bool.or_eq_false_iff, decide_eq_false_iff_not, decide_eq_false_iff_not]
  simp only [Config.addrLen, Config.maxPayload, Config.metaLen, Config.lenBias, Config.lenMax]
  omega

end Sys2Proof.Machine
end

