-- ==== Sys2Proof/Laws/Abstract.lean ====
section
/-! SUPPORT. The abstract decoder's transitions, and the views of a returned frame, said once. -/

namespace Sys2Proof.Machine

/-- A chunk cut in two: the results of both parts, the second taken where the first ended. -/
theorem DecoderState.feedn_append (S T : List Byte) (d : DecoderState) :
    d.feedn (S ++ T) = ((d.feedn S).1 ++ ((d.feedn S).2.feedn T).1, ((d.feedn S).2.feedn T).2) := by
  induction S generalizing d with
  | nil => rfl
  | cons b S ih =>
    simp only [List.cons_append, DecoderState.feedn, ih]
    cases (d.feed b).1.isSome <;> simp

/-- A byte of the body, before the checksum byte, is buffered. -/
theorem DecoderState.feed_body (declaredLen : BitVec 16) (buffer : List Byte) (b : Byte)
    (h : buffer.length < declaredLen.toNat - Config.lenBias) :
    (DecoderState.readingBody declaredLen buffer).feed b = (.none, .readingBody declaredLen (buffer ++ [b])) := by
  have h' : (buffer ++ [b]).length < declaredLen.toNat - Config.lenBias + 1 := by simpa using h
  simp only [DecoderState.feed, h', if_true]

/-- The checksum byte finishes the frame: its body, or a mismatch. -/
theorem DecoderState.feed_checksum (declaredLen : BitVec 16) (buffer : List Byte) (b : Byte)
    (h : buffer.length = declaredLen.toNat - Config.lenBias) :
    (DecoderState.readingBody declaredLen buffer).feed b =
      (if verify buffer b then .frame ⟨buffer⟩ else .errChecksumMismatch, .seeking) := by
  simp only [DecoderState.feed, ← h]
  cases hv : verify buffer b <;> simp [hv]

/-- A view of several bytes is present exactly when it fits, and then is those bytes. -/
theorem Frame.slice_eq_some (f : Frame) (lo n : Nat) (X : List Byte) :
    f.slice lo n = some X ↔ lo + n ≤ f.body.length ∧ X = (f.body.drop lo).take n := by
  unfold Frame.slice
  split <;> simp_all [eq_comm]

/-- The payload is present exactly when the body holds all the fields before it. -/
theorem Frame.payload_eq_some (f : Frame) (P : List Byte) :
    f.payload = some P ↔ Config.metaLen ≤ f.body.length ∧ P = f.body.drop Config.metaLen := by
  unfold Frame.payload
  split <;> simp_all [eq_comm]

end Sys2Proof.Machine
end

