-- ==== Sys2Proof/Laws/Decode.lean ====
section
/-! SUPPORT. The fields of a command word. -/

namespace Sys2Proof

/-- The `op` of an assembled word is the one it was assembled from. -/
@[simp] theorem opOf_commandWord (op : BitVec 3) (imm : Byte) : opOf (commandWord op imm) = op := by
  ext i hi
  have h : i + 8 < 11 := by omega
  simp [opOf, commandWord, hi, h, Nat.add_comm 8 i]

/-- So is its `imm`. -/
@[simp] theorem immOf_commandWord (op : BitVec 3) (imm : Byte) : immOf (commandWord op imm) = imm := by
  ext i hi
  have h : i < 11 := by omega
  simp [immOf, commandWord, hi, h]

/-- An assembled word decodes by its `op`. -/
theorem decodeCommand_commandWord (op : BitVec 3) (imm : Byte) (x y : List Byte) :
    decodeCommand (commandWord op imm) x y =
      match op.toNat with
      | 0 => .rst
      | 1 => .enc x y
      | 2 => .feed imm
      | 3 => .abort
      | 4 => .csum x
      | 5 => .csvfy x imm
      | 6 => .reserved6
      | _ => .reserved7 := by
  have ho := opOf_commandWord op imm
  have hi := immOf_commandWord op imm
  generalize commandWord op imm = w at ho hi ⊢
  subst ho hi
  rfl

end Sys2Proof
end

