-- ==== Sys2Proof/Laws/Memory.lean ====
section
/-! SUPPORT. The laws of the byte memory: every write keeps the canonical form, a read after a write. -/

namespace Sys2Proof.Machine

@[simp] theorem Memory.sortedFrom_nil (lo : Nat) : Memory.sortedFrom lo [] = true := rfl

theorem Memory.sortedFrom_cons {lo x : Nat} {v : Byte} {m : Memory} :
    Memory.sortedFrom lo ((x, v) :: m) = true ↔
      lo ≤ x ∧ x < Config.rxBufCap ∧ v ≠ Memory.unlisted ∧ Memory.sortedFrom (x + 1) m = true := by
  simp [Memory.sortedFrom, and_assoc]

@[simp] theorem Memory.wf_nil : Memory.wf [] = true := rfl

/-- A memory whose cells start at `lo` also starts anywhere below. -/
theorem Memory.sortedFrom_mono {m : Memory} {lo lo' : Nat} (h : Memory.sortedFrom lo m = true) (hl : lo' ≤ lo) :
    Memory.sortedFrom lo' m = true := by
  cases m with
  | nil => rfl
  | cons c m =>
    obtain ⟨x, v⟩ := c
    rw [Memory.sortedFrom_cons] at h ⊢
    exact ⟨by omega, h.2⟩

/-- Nothing is listed below the first cell. -/
theorem Memory.read_below {m : Memory} {lo a : Nat} (h : Memory.sortedFrom lo m = true) (ha : a < lo) :
    m.read a = Memory.unlisted := by
  induction m generalizing lo with
  | nil => rfl
  | cons c m ih =>
    obtain ⟨x, v⟩ := c
    rw [Memory.sortedFrom_cons] at h
    rw [Memory.read, if_neg (by omega)]
    exact ih h.2.2.2 (by omega)

/-- A write at an index of `RXBUF` at or above `lo` keeps the canonical form. -/
theorem Memory.sortedFrom_write {m : Memory} {lo a : Nat} (b : Byte) (h : Memory.sortedFrom lo m = true)
    (hlo : lo ≤ a) (ha : a < Config.rxBufCap) : Memory.sortedFrom lo (m.write a b) = true := by
  induction m generalizing lo with
  | nil =>
    by_cases hb : b = Memory.unlisted
    · simp [Memory.write, hb]
    · simp [Memory.write, hb, Memory.sortedFrom_cons, hlo, ha]
  | cons c m ih =>
    obtain ⟨x, v⟩ := c
    have h' := Memory.sortedFrom_cons.mp h
    rw [Memory.write]
    split
    · split
      · exact h
      · rename_i hax hb
        exact Memory.sortedFrom_cons.mpr ⟨hlo, ha, hb, Memory.sortedFrom_cons.mpr ⟨hax, h'.2⟩⟩
    · split
      · rename_i hax
        subst hax
        split
        · exact Memory.sortedFrom_mono h'.2.2.2 (by omega)
        · rename_i hb
          exact Memory.sortedFrom_cons.mpr ⟨hlo, ha, hb, h'.2.2.2⟩
      · exact Memory.sortedFrom_cons.mpr ⟨h'.1, h'.2.1, h'.2.2.1, ih h'.2.2.2 (by omega)⟩

/-- Every write inside `RXBUF` keeps the canonical form. -/
theorem Memory.wf_write {m : Memory} {a : Nat} (b : Byte) (h : m.wf = true) (ha : a < Config.rxBufCap) :
    (m.write a b).wf = true := Memory.sortedFrom_write b h (Nat.zero_le a) ha

theorem Memory.read_write_same_from {m : Memory} {lo : Nat} (a : Nat) (b : Byte)
    (h : Memory.sortedFrom lo m = true) : (m.write a b).read a = b := by
  induction m generalizing lo with
  | nil =>
    by_cases hb : b = Memory.unlisted
    · simp [Memory.write, Memory.read, hb]
    · simp [Memory.write, Memory.read, hb]
  | cons c m ih =>
    obtain ⟨x, v⟩ := c
    have h' := Memory.sortedFrom_cons.mp h
    rw [Memory.write]
    split
    · rename_i hax
      split
      · rename_i hb
        rw [Memory.read, if_neg (by omega), hb]
        exact Memory.read_below h'.2.2.2 (by omega)
      · simp [Memory.read]
    · split
      · rename_i hax
        subst hax
        split
        · rename_i hb
          rw [hb]
          exact Memory.read_below h'.2.2.2 (by omega)
        · simp [Memory.read]
      · rename_i hax
        rw [Memory.read, if_neg hax]
        exact ih h'.2.2.2

/-- A read after a write to the same index gives the byte written. -/
theorem Memory.read_write_same {m : Memory} (a : Nat) (b : Byte) (h : m.wf = true) :
    (m.write a b).read a = b := Memory.read_write_same_from a b h

/-- A write leaves every other index alone. -/
theorem Memory.read_write_other (m : Memory) {a c : Nat} (b : Byte) (hc : c ≠ a) :
    (m.write a b).read c = m.read c := by
  induction m with
  | nil =>
    by_cases hb : b = Memory.unlisted
    · simp [Memory.write, hb]
    · simp [Memory.write, Memory.read, hb, hc]
  | cons cell m ih =>
    obtain ⟨x, v⟩ := cell
    rw [Memory.write]
    split
    · split
      · rfl
      · rw [Memory.read, if_neg hc]
    · split
      · rename_i hax
        subst hax
        split
        · rw [Memory.read, if_neg hc]
        · rw [Memory.read, if_neg hc, Memory.read, if_neg hc]
      · rw [Memory.read, ih, Memory.read]

@[simp] theorem Memory.prefixBytes_length (m : Memory) (n : Nat) : (m.prefixBytes n).length = n := by
  simp [Memory.prefixBytes]

@[simp] theorem Memory.prefixBytes_zero (m : Memory) : m.prefixBytes 0 = [] := rfl

theorem Memory.prefixBytes_succ (m : Memory) (n : Nat) :
    m.prefixBytes (n + 1) = m.prefixBytes n ++ [m.read n] := by
  simp [Memory.prefixBytes, List.range_succ]

/-- A write at or beyond the end of a range leaves the range's bytes alone. -/
theorem Memory.prefixBytes_write (m : Memory) {n a : Nat} (b : Byte) (h : n ≤ a) :
    (m.write a b).prefixBytes n = m.prefixBytes n := by
  simp only [Memory.prefixBytes]
  apply List.map_congr_left
  intro c hc
  have := List.mem_range.mp hc
  exact Memory.read_write_other m b (by omega)

/-- Appending a byte to the buffered bytes. -/
theorem Memory.prefixBytes_append (m : Memory) (n : Nat) (b : Byte) (h : m.wf = true) :
    (m.write n b).prefixBytes (n + 1) = m.prefixBytes n ++ [b] := by
  rw [Memory.prefixBytes_succ, Memory.prefixBytes_write m b (Nat.le_refl n), Memory.read_write_same n b h]

end Sys2Proof.Machine
end

