-- ==== Sys2Proof/Laws/State.lean ====
section
/-! SUPPORT. One lemma for each field of each named update of `State`. -/

namespace Sys2Proof.Machine

/-! `State.give`. -/

@[simp] theorem State.give_rxState (s : State) (rs : List Response) : (s.give rs).rxState = s.rxState := rfl
@[simp] theorem State.give_highByteSeen (s : State) (rs : List Response) : (s.give rs).highByteSeen = s.highByteSeen := rfl
@[simp] theorem State.give_lenHi (s : State) (rs : List Response) : (s.give rs).lenHi = s.lenHi := rfl
@[simp] theorem State.give_declaredLen (s : State) (rs : List Response) : (s.give rs).declaredLen = s.declaredLen := rfl
@[simp] theorem State.give_rxCount (s : State) (rs : List Response) : (s.give rs).rxCount = s.rxCount := rfl
@[simp] theorem State.give_rxSum (s : State) (rs : List Response) : (s.give rs).rxSum = s.rxSum := rfl
@[simp] theorem State.give_rxbuf (s : State) (rs : List Response) : (s.give rs).rxbuf = s.rxbuf := rfl
@[simp] theorem State.give_pending (s : State) (rs : List Response) : (s.give rs).pending = s.pending := rfl
@[simp] theorem State.give_results (s : State) (rs : List Response) : (s.give rs).results = s.results ++ rs := rfl

/-! `State.toSeeking`. -/

@[simp] theorem State.toSeeking_rxState (s : State) : (s.toSeeking).rxState = .seeking := rfl
@[simp] theorem State.toSeeking_highByteSeen (s : State) : (s.toSeeking).highByteSeen = s.highByteSeen := rfl
@[simp] theorem State.toSeeking_lenHi (s : State) : (s.toSeeking).lenHi = s.lenHi := rfl
@[simp] theorem State.toSeeking_declaredLen (s : State) : (s.toSeeking).declaredLen = s.declaredLen := rfl
@[simp] theorem State.toSeeking_rxCount (s : State) : (s.toSeeking).rxCount = s.rxCount := rfl
@[simp] theorem State.toSeeking_rxSum (s : State) : (s.toSeeking).rxSum = s.rxSum := rfl
@[simp] theorem State.toSeeking_rxbuf (s : State) : (s.toSeeking).rxbuf = s.rxbuf := rfl
@[simp] theorem State.toSeeking_pending (s : State) : (s.toSeeking).pending = s.pending := rfl
@[simp] theorem State.toSeeking_results (s : State) : (s.toSeeking).results = s.results := rfl

/-! `State.startLength`. -/

@[simp] theorem State.startLength_rxState (s : State) : (s.startLength).rxState = .readingLength := rfl
@[simp] theorem State.startLength_highByteSeen (s : State) : (s.startLength).highByteSeen = false := rfl
@[simp] theorem State.startLength_lenHi (s : State) : (s.startLength).lenHi = s.lenHi := rfl
@[simp] theorem State.startLength_declaredLen (s : State) : (s.startLength).declaredLen = s.declaredLen := rfl
@[simp] theorem State.startLength_rxCount (s : State) : (s.startLength).rxCount = s.rxCount := rfl
@[simp] theorem State.startLength_rxSum (s : State) : (s.startLength).rxSum = s.rxSum := rfl
@[simp] theorem State.startLength_rxbuf (s : State) : (s.startLength).rxbuf = s.rxbuf := rfl
@[simp] theorem State.startLength_pending (s : State) : (s.startLength).pending = s.pending := rfl
@[simp] theorem State.startLength_results (s : State) : (s.startLength).results = s.results := rfl

/-! `State.bufferLenHi`. -/

@[simp] theorem State.bufferLenHi_rxState (b : Byte) (s : State) : (s.bufferLenHi b).rxState = s.rxState := rfl
@[simp] theorem State.bufferLenHi_highByteSeen (b : Byte) (s : State) : (s.bufferLenHi b).highByteSeen = true := rfl
@[simp] theorem State.bufferLenHi_lenHi (b : Byte) (s : State) : (s.bufferLenHi b).lenHi = b := rfl
@[simp] theorem State.bufferLenHi_declaredLen (b : Byte) (s : State) : (s.bufferLenHi b).declaredLen = s.declaredLen := rfl
@[simp] theorem State.bufferLenHi_rxCount (b : Byte) (s : State) : (s.bufferLenHi b).rxCount = s.rxCount := rfl
@[simp] theorem State.bufferLenHi_rxSum (b : Byte) (s : State) : (s.bufferLenHi b).rxSum = s.rxSum := rfl
@[simp] theorem State.bufferLenHi_rxbuf (b : Byte) (s : State) : (s.bufferLenHi b).rxbuf = s.rxbuf := rfl
@[simp] theorem State.bufferLenHi_pending (b : Byte) (s : State) : (s.bufferLenHi b).pending = s.pending := rfl
@[simp] theorem State.bufferLenHi_results (b : Byte) (s : State) : (s.bufferLenHi b).results = s.results := rfl

/-! `State.setDeclaredLen`. -/

@[simp] theorem State.setDeclaredLen_rxState (b : Byte) (s : State) : (s.setDeclaredLen b).rxState = s.rxState := rfl
@[simp] theorem State.setDeclaredLen_highByteSeen (b : Byte) (s : State) : (s.setDeclaredLen b).highByteSeen = s.highByteSeen := rfl
@[simp] theorem State.setDeclaredLen_lenHi (b : Byte) (s : State) : (s.setDeclaredLen b).lenHi = s.lenHi := rfl
@[simp] theorem State.setDeclaredLen_declaredLen (b : Byte) (s : State) : (s.setDeclaredLen b).declaredLen = assembleLen s.lenHi b := rfl
@[simp] theorem State.setDeclaredLen_rxCount (b : Byte) (s : State) : (s.setDeclaredLen b).rxCount = s.rxCount := rfl
@[simp] theorem State.setDeclaredLen_rxSum (b : Byte) (s : State) : (s.setDeclaredLen b).rxSum = s.rxSum := rfl
@[simp] theorem State.setDeclaredLen_rxbuf (b : Byte) (s : State) : (s.setDeclaredLen b).rxbuf = s.rxbuf := rfl
@[simp] theorem State.setDeclaredLen_pending (b : Byte) (s : State) : (s.setDeclaredLen b).pending = s.pending := rfl
@[simp] theorem State.setDeclaredLen_results (b : Byte) (s : State) : (s.setDeclaredLen b).results = s.results := rfl

/-! `State.enterBody`. -/

@[simp] theorem State.enterBody_rxState (s : State) : (s.enterBody).rxState = .readingBody := rfl
@[simp] theorem State.enterBody_highByteSeen (s : State) : (s.enterBody).highByteSeen = s.highByteSeen := rfl
@[simp] theorem State.enterBody_lenHi (s : State) : (s.enterBody).lenHi = s.lenHi := rfl
@[simp] theorem State.enterBody_declaredLen (s : State) : (s.enterBody).declaredLen = s.declaredLen := rfl
@[simp] theorem State.enterBody_rxCount (s : State) : (s.enterBody).rxCount = 0 := rfl
@[simp] theorem State.enterBody_rxSum (s : State) : (s.enterBody).rxSum = 0 := rfl
@[simp] theorem State.enterBody_rxbuf (s : State) : (s.enterBody).rxbuf = s.rxbuf := rfl
@[simp] theorem State.enterBody_pending (s : State) : (s.enterBody).pending = s.pending := rfl
@[simp] theorem State.enterBody_results (s : State) : (s.enterBody).results = s.results := rfl

/-! `State.storeBody`. -/

@[simp] theorem State.storeBody_rxState (b : Byte) (s : State) : (s.storeBody b).rxState = s.rxState := rfl
@[simp] theorem State.storeBody_highByteSeen (b : Byte) (s : State) : (s.storeBody b).highByteSeen = s.highByteSeen := rfl
@[simp] theorem State.storeBody_lenHi (b : Byte) (s : State) : (s.storeBody b).lenHi = s.lenHi := rfl
@[simp] theorem State.storeBody_declaredLen (b : Byte) (s : State) : (s.storeBody b).declaredLen = s.declaredLen := rfl
@[simp] theorem State.storeBody_rxCount (b : Byte) (s : State) : (s.storeBody b).rxCount = s.rxCount + 1 := rfl
@[simp] theorem State.storeBody_rxSum (b : Byte) (s : State) : (s.storeBody b).rxSum = accAdd s.rxSum b := rfl
@[simp] theorem State.storeBody_rxbuf (b : Byte) (s : State) : (s.storeBody b).rxbuf = s.rxbuf.write s.rxCount.toNat b := rfl
@[simp] theorem State.storeBody_pending (b : Byte) (s : State) : (s.storeBody b).pending = s.pending := rfl
@[simp] theorem State.storeBody_results (b : Byte) (s : State) : (s.storeBody b).results = s.results := rfl

/-! `State.resetDecoder`. -/

@[simp] theorem State.resetDecoder_rxState (s : State) : (s.resetDecoder).rxState = .seeking := rfl
@[simp] theorem State.resetDecoder_highByteSeen (s : State) : (s.resetDecoder).highByteSeen = false := rfl
@[simp] theorem State.resetDecoder_lenHi (s : State) : (s.resetDecoder).lenHi = s.lenHi := rfl
@[simp] theorem State.resetDecoder_declaredLen (s : State) : (s.resetDecoder).declaredLen = s.declaredLen := rfl
@[simp] theorem State.resetDecoder_rxCount (s : State) : (s.resetDecoder).rxCount = 0 := rfl
@[simp] theorem State.resetDecoder_rxSum (s : State) : (s.resetDecoder).rxSum = 0 := rfl
@[simp] theorem State.resetDecoder_rxbuf (s : State) : (s.resetDecoder).rxbuf = s.rxbuf := rfl
@[simp] theorem State.resetDecoder_pending (s : State) : (s.resetDecoder).pending = s.pending := rfl
@[simp] theorem State.resetDecoder_results (s : State) : (s.resetDecoder).results = s.results := rfl

/-! `State.issueFirst`. -/

@[simp] theorem State.issueFirst_rxState (s : State) (r : Request) : (s.issueFirst r).rxState = s.rxState := rfl
@[simp] theorem State.issueFirst_highByteSeen (s : State) (r : Request) : (s.issueFirst r).highByteSeen = s.highByteSeen := rfl
@[simp] theorem State.issueFirst_lenHi (s : State) (r : Request) : (s.issueFirst r).lenHi = s.lenHi := rfl
@[simp] theorem State.issueFirst_declaredLen (s : State) (r : Request) : (s.issueFirst r).declaredLen = s.declaredLen := rfl
@[simp] theorem State.issueFirst_rxCount (s : State) (r : Request) : (s.issueFirst r).rxCount = s.rxCount := rfl
@[simp] theorem State.issueFirst_rxSum (s : State) (r : Request) : (s.issueFirst r).rxSum = s.rxSum := rfl
@[simp] theorem State.issueFirst_rxbuf (s : State) (r : Request) : (s.issueFirst r).rxbuf = s.rxbuf := rfl
@[simp] theorem State.issueFirst_pending (s : State) (r : Request) : (s.issueFirst r).pending = .single r :: s.pending := rfl
@[simp] theorem State.issueFirst_results (s : State) (r : Request) : (s.issueFirst r).results = s.results := rfl

/-- Giving no result changes nothing. -/
@[simp] theorem State.give_nil (s : State) : s.give [] = s := by
  simp [State.give]

/-- Results given in two goes are given in order. -/
theorem State.give_give (s : State) (rs qs : List Response) : (s.give rs).give qs = s.give (rs ++ qs) := by
  simp [State.give]

end Sys2Proof.Machine
end

