-- ==== Sys2Proof/Laws/Ops.lean ====
section
/-! SUPPORT. For each shared operation, what it can do, said once. -/

namespace Sys2Proof.Machine

/-- Raising an error reports it; all but `InvalidArgument` put the decoder in `Seeking`. -/
theorem State.raise_cases (e : ErrorKind) (s : State) :
    s.raise e = (e.response, s) ∧ e = .invalidArgument ∨ s.raise e = (e.response, s.toSeeking) ∧ e ≠ .invalidArgument := by
  cases e with
  | invalidArgument => exact .inl ⟨rfl, rfl⟩
  | checksumMismatch => exact .inr ⟨rfl, by decide⟩
  | truncated => exact .inr ⟨rfl, by decide⟩

/-- `ENC` returns the frame or `InvalidArgument` and touches nothing. -/
theorem encodeFrame_eq (A P : List Byte) (s : State) :
    encodeFrame A P s = (if encOperandsBad A P then .errInvalidArgument else .bytes (txFrame A P), s) := by
  unfold encodeFrame
  split <;> rfl

/-- `ABORT` does nothing in `Seeking` and reports a truncated frame elsewhere. -/
theorem abortDecoder_eq (s : State) :
    abortDecoder s = (if s.rxState = .seeking then .none else .errTruncated, s.toSeeking) := by
  cases s with
  | mk rxState _ _ _ _ _ _ _ _ => cases rxState <;> rfl

/-- The body arm after its store: not yet whole, verified, or not. -/
theorem finishBody_cases (s : State) :
    s.rxCount.toNat < s.bodyLen + 1 ∧ finishBody s = (.none, s) ∨
    s.bodyLen + 1 ≤ s.rxCount.toNat ∧ verify (s.rxbuf.prefixBytes s.bodyLen) (s.rxbuf.read s.bodyLen) = true ∧
      finishBody s = (.frame ⟨s.rxbuf.prefixBytes s.bodyLen⟩, s.toSeeking) ∨
    s.bodyLen + 1 ≤ s.rxCount.toNat ∧ verify (s.rxbuf.prefixBytes s.bodyLen) (s.rxbuf.read s.bodyLen) = false ∧
      finishBody s = (.errChecksumMismatch, s.toSeeking) := by
  by_cases h : s.rxCount.toNat < s.bodyLen + 1
  · exact .inl ⟨h, by simp [finishBody, h]⟩
  · cases hv : verify (s.rxbuf.prefixBytes s.bodyLen) (s.rxbuf.read s.bodyLen) with
    | true => exact .inr (.inl ⟨by omega, rfl, by simp [finishBody, h, hv]⟩)
    | false => exact .inr (.inr ⟨by omega, rfl, by simp [finishBody, h, hv, State.raise, ErrorKind.response]⟩)

/-- Every arm of `FEED`, with its guard, its result and the state after it. -/
theorem feedByte_cases {b : Byte} {s : State} {p : Response × State} (h : feedByte b s = .ok p) :
    (s.rxState = .seeking ∧ b = Config.delim ∧ p = (.none, s.startLength)) ∨
    (s.rxState = .seeking ∧ b ≠ Config.delim ∧ p = (.none, s)) ∨
    (s.rxState = .readingLength ∧ s.highByteSeen = false ∧ p = (.none, s.bufferLenHi b)) ∨
    (s.rxState = .readingLength ∧ s.highByteSeen = true ∧ (assembleLen s.lenHi b).toNat ≤ Config.lenBias ∧
      p = (.none, (s.setDeclaredLen b).toSeeking)) ∨
    (s.rxState = .readingLength ∧ s.highByteSeen = true ∧ Config.lenBias < (assembleLen s.lenHi b).toNat ∧
      p = (.none, (s.setDeclaredLen b).enterBody)) ∨
    (s.rxState = .readingBody ∧ s.rxCount.toNat < Config.rxBufCap ∧ p = finishBody (s.storeBody b)) := by
  unfold feedByte at h
  split at h
  · rename_i hs
    unfold feedSeeking at h
    split at h
    · rename_i hb
      exact .inl ⟨hs, hb, by simpa using h.symm⟩
    · rename_i hb
      exact .inr (.inl ⟨hs, hb, by simpa using h.symm⟩)
  · rename_i hs
    unfold feedLength at h
    split at h
    · rename_i hh
      unfold feedLengthLow at h
      split at h
      · rename_i hd
        exact .inr (.inr (.inr (.inl ⟨hs, hh, hd, by simpa using h.symm⟩)))
      · rename_i hd
        exact .inr (.inr (.inr (.inr (.inl ⟨hs, hh, by omega, by simpa using h.symm⟩))))
    · rename_i hh
      exact .inr (.inr (.inl ⟨hs, by simpa using hh, by simpa using h.symm⟩))
  · rename_i hs
    unfold feedBody at h
    split at h
    · rename_i hc
      exact .inr (.inr (.inr (.inr (.inr ⟨hs, hc, by simpa using h.symm⟩))))
    · cases h

/-- `FEED` faults exactly in the body arm at an index that is not one of `RXBUF`. -/
theorem feedByte_error_iff (b : Byte) (s : State) (f : Fault) :
    feedByte b s = .error f ↔ f = .rxbufRange ∧ s.rxState = .readingBody ∧ Config.rxBufCap ≤ s.rxCount.toNat := by
  cases f
  unfold feedByte
  split <;> rename_i hs
  · simp [hs]
  · simp [hs]
  · by_cases hc : s.rxCount.toNat < Config.rxBufCap
    · simp [feedBody, hc, hs]
    · simp [feedBody, hc, hs]
      omega

/-- `FEEDN` of a chunk is its `FEED`s on the first part, then on the rest. -/
theorem feedBytes_append (S T : List Byte) (s : State) :
    feedBytes (S ++ T) s =
      match feedBytes S s with
      | .error f => .error f
      | .ok (rs, t) => match feedBytes T t with
        | .error f => .error f
        | .ok (qs, u) => .ok (rs ++ qs, u) := by
  induction S generalizing s with
  | nil => 
    simp only [List.nil_append, feedBytes]
    cases feedBytes T s <;> rfl
  | cons b S ih =>
    simp only [List.cons_append, feedBytes]
    cases feedByte b s with
    | error f => rfl
    | ok p =>
      obtain ⟨r, t⟩ := p
      simp only [ih]
      cases feedBytes S t with
      | error f => rfl
      | ok q =>
        obtain ⟨rs, u⟩ := q
        simp only
        cases feedBytes T u with
        | error f => rfl
        | ok w => cases hr : r.isSome <;> simp

/-- When `FEEDN` completes, what it gives. -/
theorem feedAll_next_iff (S : List Byte) (s t : State) :
    feedAll S s = .next t ↔ ∃ rs u, feedBytes S s = .ok (rs, u) ∧ t = u.give rs := by
  unfold feedAll
  cases feedBytes S s with
  | error f => simp
  | ok p =>
    obtain ⟨rs, u⟩ := p
    simp only [Host.Outcome.next.injEq, Except.ok.injEq, Prod.mk.injEq]
    constructor
    · rintro rfl
      exact ⟨rs, u, ⟨rfl, rfl⟩, rfl⟩
    · rintro ⟨_, _, ⟨rfl, rfl⟩, rfl⟩
      rfl

/-- An outcome of one request: an undecodable one is refused, any other is its instruction performed. -/
theorem runRequest_cases (r : Request) (s : State) :
    (∃ e, decode r = .error e ∧ runRequest r s = .refused (.undecodable e)) ∨
    (∃ i, decode r = .ok i ∧ runRequest r s = exec i s) := by
  unfold runRequest
  cases h : decode r with
  | error e => exact .inl ⟨e, rfl, rfl⟩
  | ok i => exact .inr ⟨i, rfl, rfl⟩

/-- Requests decode together exactly as they decode one by one. -/
theorem decodeAll_eq_ok_iff (rs : List Request) (is : List Instr) :
    decodeAll rs = .ok is ↔ rs.map decode = is.map .ok := by
  induction rs generalizing is with
  | nil => cases is <;> simp [decodeAll]
  | cons r rs ih =>
    cases hr : decode r with
    | error e => cases is <;> simp [decodeAll, hr]
    | ok i =>
      cases hs : decodeAll rs with
      | error e =>
        cases is with
        | nil => simp [decodeAll, hr, hs]
        | cons j js => simpa [decodeAll, hr, hs] using fun _ h => by simp [(ih js).2 h] at hs
      | ok js =>
        cases is with
        | nil => simp [decodeAll, hr, hs]
        | cons k ks => simp [decodeAll, hr, hs, ← ih ks]

/-- Performing a list in two parts. -/
theorem execAll_append (is js : List Instr) (s : State) :
    execAll (is ++ js) s =
      match execAll is s with
      | .next t => execAll js t
      | .fault f => .fault f
      | .refused r => .refused r := by
  induction is generalizing s with
  | nil => rfl
  | cons i is ih =>
    simp only [List.cons_append, execAll]
    cases exec i s with
    | next t => exact ih t
    | fault f => rfl
    | refused r => rfl

/-- What an overlap does once its requests decode: refused when two touch decoder state, else the
instructions one after another. -/
theorem runOverlap_decoded {rs : List Request} {is : List Instr} (h : rs.map decode = is.map .ok) (s : State) :
    runOverlap rs s = if (is.filter touchesDecoder).length ≤ 1 then execAll is s else .refused .overlap := by
  simp only [runOverlap, (decodeAll_eq_ok_iff rs is).2 h]

/-- When an overlap completes: every request decodes, at most one touches decoder state, and the
instructions complete one after another. -/
theorem runOverlap_next {rs : List Request} {s t : State} (h : runOverlap rs s = .next t) :
    ∃ is, rs.map decode = is.map .ok ∧ (is.filter touchesDecoder).length ≤ 1 ∧ execAll is s = .next t := by
  cases hd : decodeAll rs with
  | error e => simp [runOverlap, hd] at h
  | ok is =>
    have hm := (decodeAll_eq_ok_iff rs is).1 hd
    rw [runOverlap_decoded hm] at h
    split at h
    · rename_i hc
      exact ⟨is, hm, hc, h⟩
    · cases h

/-- An idle block keeps its state. -/
theorem runNext_idle {s : State} (h : s.pending = []) : runNext s = .next s := by
  simp [runNext, h]

/-- With something issued, the first entry is performed on the rest. -/
theorem runNext_cons {s : State} {l : Launch} {rest : List Launch} (h : s.pending = l :: rest) :
    runNext s = runLaunch l { s with pending := rest } := by
  simp [runNext, h]

end Sys2Proof.Machine
end

