-- ==== Sys2Proof/Laws/Exec.lean ====
section
/-! SUPPORT. What every instruction does with the caller's side of the state (the issue order and the
results): no instruction reads it, and results are only ever appended. -/

namespace Sys2Proof.Machine

/-- The same registers with another caller's side. -/
def State.withCaller (s : State) (ps : List Launch) (qs : List Response) : State :=
  { s with pending := ps, results := qs }

theorem State.withCaller_self (s : State) : s.withCaller s.pending s.results = s := rfl

@[simp] theorem State.withCaller_withCaller (s : State) (ps ps' : List Launch) (qs qs' : List Response) :
    (s.withCaller ps qs).withCaller ps' qs' = s.withCaller ps' qs' := rfl

@[simp] theorem State.withCaller_pending (s : State) (ps : List Launch) (qs : List Response) :
    (s.withCaller ps qs).pending = ps := rfl

@[simp] theorem State.withCaller_results (s : State) (ps : List Launch) (qs : List Response) :
    (s.withCaller ps qs).results = qs := rfl

@[simp] theorem State.withCaller_abs (s : State) (ps : List Launch) (qs : List Response) :
    (s.withCaller ps qs).abs = s.abs := rfl

@[simp] theorem State.withCaller_rxCount (s : State) (ps : List Launch) (qs : List Response) :
    (s.withCaller ps qs).rxCount = s.rxCount := rfl

@[simp] theorem State.withCaller_rxbuf (s : State) (ps : List Launch) (qs : List Response) :
    (s.withCaller ps qs).rxbuf = s.rxbuf := rfl

@[simp] theorem State.withCaller_bodyLen (s : State) (ps : List Launch) (qs : List Response) :
    (s.withCaller ps qs).bodyLen = s.bodyLen := rfl

theorem finishBody_caller (s : State) (ps : List Launch) (qs : List Response) :
    finishBody (s.withCaller ps qs) = ((finishBody s).1, (finishBody s).2.withCaller ps qs) := by
  rcases finishBody_cases s with ⟨h, e⟩ | ⟨h, hv, e⟩ | ⟨h, hv, e⟩ <;> rw [e]
  · exact if_pos h
  · exact (if_neg (Nat.not_lt.mpr h)).trans (if_pos hv)
  · exact (if_neg (Nat.not_lt.mpr h)).trans (if_neg (by simp [hv]))

/-- `FEED` neither reads nor writes the caller's side. -/
theorem feedByte_caller (b : Byte) (s : State) (ps : List Launch) (qs : List Response) :
    feedByte b (s.withCaller ps qs) = (feedByte b s).map fun p => (p.1, p.2.withCaller ps qs) := by
  cases hs : s.rxState with
  | seeking =>
    have hs' : (s.withCaller ps qs).rxState = .seeking := hs
    by_cases hb : b = Config.delim
    · simp only [feedByte, hs, hs', feedSeeking, hb, if_true, Except.map]
      rfl
    · simp only [feedByte, hs, hs', feedSeeking, hb, if_false, Except.map]
  | readingLength =>
    have hs' : (s.withCaller ps qs).rxState = .readingLength := hs
    cases hh : s.highByteSeen with
    | false =>
      have hh' : (s.withCaller ps qs).highByteSeen = false := hh
      simp only [feedByte, hs, hs', feedLength, hh, hh', Bool.false_eq_true, if_false, Except.map]
      rfl
    | true =>
      have hh' : (s.withCaller ps qs).highByteSeen = true := hh
      by_cases hd : (assembleLen s.lenHi b).toNat ≤ Config.lenBias
      · have hd' : (assembleLen (s.withCaller ps qs).lenHi b).toNat ≤ Config.lenBias := hd
        simp only [feedByte, hs, hs', feedLength, hh, hh', feedLengthLow, hd, hd', if_true, Except.map]
        rfl
      · have hd' : ¬ (assembleLen (s.withCaller ps qs).lenHi b).toNat ≤ Config.lenBias := hd
        simp only [feedByte, hs, hs', feedLength, hh, hh', feedLengthLow, hd, hd', if_true, if_false, Except.map]
        rfl
  | readingBody =>
    have hs' : (s.withCaller ps qs).rxState = .readingBody := hs
    by_cases hc : s.rxCount.toNat < Config.rxBufCap
    · have hc' : (s.withCaller ps qs).rxCount.toNat < Config.rxBufCap := hc
      simp only [feedByte, hs, hs', feedBody, hc, hc', if_true, Except.map]
      exact congrArg Except.ok (finishBody_caller (s.storeBody b) ps qs)
    · have hc' : ¬ (s.withCaller ps qs).rxCount.toNat < Config.rxBufCap := hc
      simp only [feedByte, hs, hs', feedBody, hc, hc', if_false, Except.map]

/-- `FEED` leaves the caller's side as it was. -/
theorem feedByte_keeps_caller {b : Byte} {s : State} {p : Response × State} (h : feedByte b s = .ok p) :
    p.2.pending = s.pending ∧ p.2.results = s.results := by
  have e := feedByte_caller b s s.pending s.results
  rw [State.withCaller_self, h] at e
  have h2 : p.2 = p.2.withCaller s.pending s.results := congrArg Prod.snd (Except.ok.inj e)
  exact ⟨(congrArg State.pending h2).trans rfl, (congrArg State.results h2).trans rfl⟩

/-- The same for a chunk. -/
theorem feedBytes_caller (S : List Byte) (s : State) (ps : List Launch) (qs : List Response) :
    feedBytes S (s.withCaller ps qs) = (feedBytes S s).map fun p => (p.1, p.2.withCaller ps qs) := by
  induction S generalizing s with
  | nil => rfl
  | cons b S ih =>
    simp only [feedBytes]
    rw [feedByte_caller]
    cases feedByte b s with
    | error f => rfl
    | ok p =>
      obtain ⟨r, t⟩ := p
      simp only [Except.map]
      rw [ih]
      cases feedBytes S t with
      | error f => rfl
      | ok q => rfl

theorem feedBytes_keeps_caller {S : List Byte} {s : State} {p : List Response × State}
    (h : feedBytes S s = .ok p) : p.2.pending = s.pending ∧ p.2.results = s.results := by
  have e := feedBytes_caller S s s.pending s.results
  rw [State.withCaller_self, h] at e
  have h2 : p.2 = p.2.withCaller s.pending s.results := congrArg Prod.snd (Except.ok.inj e)
  exact ⟨(congrArg State.pending h2).trans rfl, (congrArg State.results h2).trans rfl⟩

/-- What an outcome says about the caller's side: a next state appends its results, and the same
operation on another caller's side appends the same ones; a stop is the same stop. -/
def CallerLaw (f : State → Host.Outcome State Fault Refusal) : Prop :=
  ∀ s ps qs,
    match f s with
    | .next t => t.pending = s.pending ∧ ∃ rs, t.results = s.results ++ rs ∧
        f (s.withCaller ps qs) = .next (t.withCaller ps (qs ++ rs))
    | .fault w => f (s.withCaller ps qs) = .fault w
    | .refused w => f (s.withCaller ps qs) = .refused w

theorem feedAll_callerLaw (S : List Byte) : CallerLaw (feedAll S) := by
  intro s ps qs
  simp only [feedAll]
  rw [feedBytes_caller]
  cases h : feedBytes S s with
  | error f => rfl
  | ok p =>
    obtain ⟨rs, t⟩ := p
    obtain ⟨h1, h2⟩ := feedBytes_keeps_caller h
    exact ⟨h1, rs, congrArg (· ++ rs) h2, rfl⟩

/-- Every instruction obeys the caller's law: it reads neither the issue order nor the results. -/
theorem exec_callerLaw (i : Instr) : CallerLaw (exec i) := by
  cases i with
  | rst => exact fun s ps qs => ⟨rfl, [.none], rfl, rfl⟩
  | enc A P =>
    intro s ps qs
    simp only [exec, execEnc, complete, encodeFrame_eq]
    exact ⟨rfl, _, rfl, rfl⟩
  | feed b =>
    intro s ps qs
    simp only [exec, execFeed]
    rw [feedByte_caller]
    cases h : feedByte b s with
    | error f => rfl
    | ok p =>
      obtain ⟨h1, h2⟩ := feedByte_keeps_caller h
      exact ⟨h1, [p.1], congrArg (· ++ [p.1]) h2, rfl⟩
  | abort =>
    intro s ps qs
    simp only [exec, execAbort, complete, abortDecoder_eq]
    exact ⟨rfl, _, rfl, rfl⟩
  | csum S => exact fun s ps qs => ⟨rfl, _, rfl, rfl⟩
  | csvfy S c => exact fun s ps qs => ⟨rfl, _, rfl, rfl⟩
  | reserved6 => exact fun s ps qs => rfl
  | reserved7 => exact fun s ps qs => rfl
  | feedn S => exact feedAll_callerLaw S
  | decode S => exact fun s ps qs => feedAll_callerLaw S s.resetDecoder ps qs
  | txreq A P =>
    intro s ps qs
    simp only [exec, execTxreq, complete, encodeFrame_eq]
    exact ⟨rfl, _, rfl, rfl⟩
  | rxframe declaredLen tail => exact feedAll_callerLaw (rxFrame declaredLen tail)

end Sys2Proof.Machine
end

