-- ==== Sys2Proof/Laws/PerInstr.lean ====
section
/-! SUPPORT. Statements for all instructions, one lemma for each constructor. -/

namespace Sys2Proof.Laws.Expansion

/-- What an instruction expands to are core operations, which expand no further, and each of them is a
command word (R84, R85). -/
def Statement (i : Instr) : Prop :=
  ∀ j ∈ expand i, expand j = [j] ∧ ∃ w x y, encode j = .command w x y ∧ decode (encode j) = .ok j

theorem core_feed (b : Byte) :
    expand (.feed b) = [.feed b] ∧
      ∃ w x y, encode (.feed b) = .command w x y ∧ decode (encode (.feed b)) = .ok (.feed b) := by
  exact ⟨rfl, _, _, _, rfl, congrArg Except.ok (decodeCommand_commandWord 2 b [] [])⟩

theorem feeds (S : List Byte) : ∀ j ∈ S.map Instr.feed,
    expand j = [j] ∧ ∃ w x y, encode j = .command w x y ∧ decode (encode j) = .ok j := by
  intro j hj
  obtain ⟨b, _, rfl⟩ := List.mem_map.mp hj
  exact core_feed b

theorem rst : Statement .rst := by
  intro j hj
  obtain rfl : j = .rst := by simpa [expand] using hj
  exact ⟨rfl, _, _, _, rfl, rfl⟩

theorem enc (A P : List Byte) : Statement (.enc A P) := by
  intro j hj
  obtain rfl : j = .enc A P := by simpa [expand] using hj
  exact ⟨rfl, _, _, _, rfl, rfl⟩

theorem feed (b : Byte) : Statement (.feed b) := by
  intro j hj
  obtain rfl : j = .feed b := by simpa [expand] using hj
  exact core_feed b

theorem abort : Statement .abort := by
  intro j hj
  obtain rfl : j = .abort := by simpa [expand] using hj
  exact ⟨rfl, _, _, _, rfl, rfl⟩

theorem csum (S : List Byte) : Statement (.csum S) := by
  intro j hj
  obtain rfl : j = .csum S := by simpa [expand] using hj
  exact ⟨rfl, _, _, _, rfl, rfl⟩

theorem csvfy (S : List Byte) (c : Byte) : Statement (.csvfy S c) := by
  intro j hj
  obtain rfl : j = .csvfy S c := by simpa [expand] using hj
  exact ⟨rfl, _, _, _, rfl, congrArg Except.ok (decodeCommand_commandWord 5 c S [])⟩

theorem reserved6 : Statement .reserved6 := by
  intro j hj
  obtain rfl : j = .reserved6 := by simpa [expand] using hj
  exact ⟨rfl, _, _, _, rfl, rfl⟩

theorem reserved7 : Statement .reserved7 := by
  intro j hj
  obtain rfl : j = .reserved7 := by simpa [expand] using hj
  exact ⟨rfl, _, _, _, rfl, rfl⟩

theorem feedn (S : List Byte) : Statement (.feedn S) := feeds S

theorem decode (S : List Byte) : Statement (.decode S) := by
  intro j hj
  rcases List.mem_cons.mp hj with rfl | hj
  · exact rst .rst (by simp [expand])
  · exact feeds S j hj

theorem txreq (A P : List Byte) : Statement (.txreq A P) := enc A P

theorem rxframe (declaredLen : BitVec 16) (tail : List Byte) : Statement (.rxframe declaredLen tail) :=
  feeds (Machine.rxFrame declaredLen tail)

end Sys2Proof.Laws.Expansion
end

