-- ==== Sys2Proof/Tests/Slice0.lean ====
section
/-! SUPPORT. Tests on the spec's own vectors (95_test_vectors.md), the WellFormed smoke tests, and for
every statement with hypotheses a witness that meets them. -/

namespace Sys2Proof.Tests

open Sys2Proof Sys2Proof.Machine

/-! Helpers: what a test looks at, and small states. -/

def resultsOf : Host.Outcome State Fault Refusal → Option (List Response)
  | .next t => some t.results
  | .fault _ => none
  | .refused _ => none

def absOf : Host.Outcome State Fault Refusal → Option DecoderState
  | .next t => some t.abs
  | .fault _ => none
  | .refused _ => none

def refusalOf : Host.Outcome State Fault Refusal → Option Refusal
  | .next _ => none
  | .fault _ => none
  | .refused w => some w

def okOf : Except DecodeError Instr → Option Instr
  | .ok i => some i
  | .error _ => none

def errorOf : Except DecodeError Instr → Option DecodeError
  | .ok _ => none
  | .error e => some e

/-- Vector E2: the frame with the empty payload to the broadcast address (V3). -/
def vectorE2 : List Byte :=
  [0x7E, 0x00, 0x0F, 0x10, 0x01, 0x00, 0x00, 0x00, 0x00, 0x00, 0x00, 0xFF, 0xFF, 0xFF, 0xFE, 0x00, 0x00, 0xF3]

/-- Vector E1: the source's worked example, completed (V1). -/
def vectorE1 : List Byte :=
  [0x7E, 0x00, 0x13, 0x10, 0x01, 0x00, 0x00, 0x00, 0x00, 0x00, 0x00, 0xFF, 0xFF, 0xFF, 0xFE, 0x00, 0x00, 0x0A,
   0x73, 0x00, 0x6E, 0x08]

/-- `ReadingLength(false)`. -/
def awaitHigh : State := { State.reset with rxState := .readingLength }

/-- `ReadingLength(true, hi)`. -/
def awaitLow (hi : Byte) : State := { awaitHigh with highByteSeen := true, lenHi := hi }

/-- `ReadingBody(3, [8A])`, inside the frame of vector D8. -/
def midBody : State :=
  { State.reset with rxState := .readingBody, declaredLen := 3, rxCount := 1, rxSum := 0x8A, rxbuf := [(0, 0x8A)] }

/-- `ReadingBody(3, [8A 06])`: vector D8 before its checksum byte. -/
def fullBody : State :=
  { State.reset with rxState := .readingBody, declaredLen := 3, rxCount := 2, rxSum := 0x90,
                     rxbuf := [(0, 0x8A), (1, 0x06)] }

/-- Outside every run: an `rx_count` that is no index of `RXBUF`. -/
def beyondBuffer : State := { State.reset with rxState := .readingBody, rxCount := 65536 }

theorem midBody_inv : midBody.Inv := ⟨by decide, by decide, by decide, by decide⟩

theorem fullBody_inv : fullBody.Inv := ⟨by decide, by decide, by decide, by decide⟩

theorem reset_inv : State.reset.Inv := ⟨by decide, by decide, by decide, by decide⟩

/-! WellFormed: an ill-formed term for each check, and its least repair. -/

theorem test_illformed_address : (Instr.txreq [0, 0, 0, 0, 0, 0, 0] []).wellFormed = false := by decide

theorem test_illformed_payload : (Instr.txreq Config.bcastAddr (List.replicate 65521 0)).wellFormed = false := by
  rw [Instr.wellFormed, List.length_replicate]
  decide

theorem test_illformed_tail : (Instr.rxframe 3 [0x8A, 0x06]).wellFormed = false := by decide

theorem test_illformed_degenerate : (Instr.rxframe 1 [0xFF]).wellFormed = false := by decide

theorem test_wellformed_frames :
    (Instr.txreq Config.bcastAddr []).wellFormed = true ∧ (Instr.rxframe 3 [0x8A, 0x06, 0x6F]).wellFormed = true ∧
      (Instr.rxframe 1 []).wellFormed = true := by decide

/-! Decoding: every constructor by the word or the bytes the spec writes for it (R83, Table R80, V1, D8). -/

theorem test_decode_rst : decodeTableWord 16 0b000_00000000 = some .rst := by decide
theorem test_decode_rst_imm : decodeTableWord 16 0x0FF = some .rst := by decide
theorem test_decode_enc : okOf (decode (.command 0b001_00000000 [1] [2])) = some (.enc [1] [2]) := by decide
theorem test_decode_feed : decodeTableWord 16 0b010_01111110 = some (.feed 0x7E) := by decide
theorem test_decode_abort : decodeTableWord 16 0b011_00000000 = some .abort := by decide
theorem test_decode_csum : okOf (decode (.command 0b100_00000000 [1] [])) = some (.csum [1]) := by decide
theorem test_decode_csvfy :
    okOf (decode (.command 0b101_00001001 [1] [])) = some (.csvfy [1] 0x09) := by decide
theorem test_decode_reserved6 : decodeTableWord 16 0b110_11111111 = some .reserved6 := by decide
theorem test_decode_reserved7 : decodeTableWord 16 0b111_00000000 = some .reserved7 := by decide
theorem test_decode_feedn : okOf (decode (.chunk [0x7E])) = some (.feedn [0x7E]) := by decide
theorem test_decode_decode : okOf (decode (.fresh [0x7E])) = some (.decode [0x7E]) := by decide
theorem test_decode_txreq :
    okOf (decode (.outbound vectorE1)) = some (.txreq Config.bcastAddr [0x0A, 0x73, 0x00, 0x6E]) := by decide
theorem test_decode_rxframe :
    okOf (decode (.inbound [0x7E, 0x00, 0x03, 0x8A, 0x06, 0x6F])) = some (.rxframe 3 [0x8A, 0x06, 0x6F]) := by decide
theorem test_decode_word_too_wide : decodeTableWord 16 0x800 = none := by decide

theorem test_decode_rejects :
    errorOf (decode (.outbound (vectorE1.set 3 0x90))) = some .outboundHeader ∧
    errorOf (decode (.outbound (vectorE1.set 2 0x12))) = some .outboundLength ∧
    errorOf (decode (.outbound (vectorE1.set 21 0x09))) = some .outboundChecksum ∧
    errorOf (decode (.inbound [0x7F, 0x00, 0x02, 0x10, 0xEF])) = some .inboundDelimiter ∧
    errorOf (decode (.inbound [0x7E, 0x00])) = some .inboundShort ∧
    errorOf (decode (.inbound [0x7E, 0x00, 0x02, 0x10])) = some .inboundLength := by decide

/-! ENC (E1, E3, E14 to E16). -/

theorem test_enc_E1 :
    resultsOf (exec (.enc Config.bcastAddr [0x0A, 0x73, 0x00, 0x6E]) midBody) = some [.bytes vectorE1] := by decide

theorem test_enc_E15 :
    resultsOf (exec (.enc [0x00, 0x00, 0x00, 0x00, 0x00, 0x00, 0xFF] [0x01]) State.reset) =
      some [.errInvalidArgument] := by decide

/-! CSUM, CSVFY (K4, K8, K13, K18). -/

theorem test_csum_K4 :
    resultsOf (exec (.csum [0xFF, 0x01]) State.reset) = some [.value (.byte 0xFF)] := by decide

theorem test_csum_K8 :
    resultsOf (exec (.csum ((vectorE1.drop 3).dropLast)) State.reset) = some [.value (.byte 0x08)] := by decide

theorem test_csvfy_K13 :
    resultsOf (exec (.csvfy ((vectorE2.drop 3).dropLast) 0xF2) State.reset) = some [.value (.bit 0)] := by decide

theorem test_csvfy_K18 :
    resultsOf (exec (.csvfy [0xFF, 0xFF] 0x01) State.reset) = some [.value (.bit 1)] := by decide

/-! FEED (D3; R146's example on D8's frame). -/

theorem test_feed_D3 : absOf (exec (.feed 0x7E) awaitHigh) = some (.readingLength (some 0x7E)) := by decide

theorem test_feed_D8 :
    resultsOf (exec (.feed 0x6F) fullBody) = some [.frame ⟨[0x8A, 0x06]⟩] ∧
    resultsOf (exec (.feed 0x6E) fullBody) = some [.errChecksumMismatch] := by decide

/-! FEEDN (D4, D7). -/

theorem test_feedn_D4 : absOf (exec (.feedn [0x7E, 0x7E, 0x7E]) State.reset) = some (.readingBody 32382 []) := by
  decide

theorem test_feedn_D7 :
    absOf (exec (.feedn (0x7E :: vectorE2)) State.reset) =
      some (.readingBody 32256
        [0x0F, 0x10, 0x01, 0x00, 0x00, 0x00, 0x00, 0x00, 0x00, 0xFF, 0xFF, 0xFF, 0xFE, 0x00, 0x00, 0xF3]) := by decide

/-! DECODE (V2, D10). -/

theorem test_decode_V2 :
    resultsOf (exec (.decode vectorE1) midBody) = some [.frame ⟨(vectorE1.drop 3).dropLast⟩] := by decide

theorem test_decode_D10 :
    resultsOf (exec (.decode [0x7E, 0x00, 0x02, 0x81, 0x7E, 0x7E, 0x00, 0x02, 0x00, 0xFF]) State.reset) =
      some [.frame ⟨[0x81]⟩, .frame ⟨[0x00]⟩] := by decide

/-! ABORT (T1, T4), RST (T8). -/

theorem test_abort_T1 : resultsOf (exec .abort State.reset) = some [.none] := by decide

theorem test_abort_T4 :
    resultsOf (exec .abort midBody) = some [.errTruncated] ∧ absOf (exec .abort midBody) = some .seeking := by decide

theorem test_rst_T8 :
    resultsOf (exec .rst midBody) = some [.none] ∧ absOf (exec .rst midBody) = some .seeking := by decide

/-! The wire rows: E2's frame going out, D8's coming in, and D5's degenerate length. -/

theorem test_txreq_E2 : resultsOf (exec (.txreq Config.bcastAddr []) State.reset) = some [.bytes vectorE2] := by
  decide

theorem test_rxframe_D8 :
    resultsOf (exec (.rxframe 3 [0x8A, 0x06, 0x6F]) State.reset) = some [.frame ⟨[0x8A, 0x06]⟩] ∧
    resultsOf (exec (.rxframe 0 []) State.reset) = some [] := by decide

/-! The views of V2's frame and of D8's short one (R147, R148). -/

theorem test_views_V2 :
    Frame.address ⟨(vectorE1.drop 3).dropLast⟩ = some Config.bcastAddr ∧
    Frame.payload ⟨(vectorE1.drop 3).dropLast⟩ = some [0x0A, 0x73, 0x00, 0x6E] := by decide

theorem test_views_D8 :
    Frame.frameType ⟨[0x8A, 0x06]⟩ = some 0x8A ∧ Frame.frameId ⟨[0x8A, 0x06]⟩ = some 0x06 ∧
    Frame.address ⟨[0x8A, 0x06]⟩ = none ∧ Frame.payload ⟨[0x8A, 0x06]⟩ = none := by decide

/-! Steps: an issued word is the next thing performed, an idle block keeps its state. -/

theorem test_step_word : absOf (step (State.reset.withFetchWord 16 0x27E)) = some (.readingLength none) := by decide

theorem test_step_inbound_row : absOf (step (State.reset.withFetchWord 8 0x7E)) = some .seeking := by decide

theorem test_response_kinds :
    Response.kind .errInvalidArgument = 3 ∧ Response.kind .errChecksumMismatch = 4 ∧
    Response.kind .errTruncated = 5 := by decide

/-! Witnesses: for each statement with hypotheses, operands and a state that meet them together. -/

theorem witness_DecodeEncodeRoundTrip :
    (Instr.txreq Config.bcastAddr [0x7E]).wellFormed = true ∧ (Instr.rxframe 2 [0x81, 0x7E]).wellFormed = true ∧
    (Instr.feed 0x7E).wellFormed = true := by decide

theorem witness_DecodedFramesReencode :
    okOf (decode (.outbound vectorE2)) = some (.txreq Config.bcastAddr []) ∧
    okOf (decode (.inbound [0x7E, 0x00, 0x01])) = some (.rxframe 1 []) := by decide

theorem witness_StepRunsTheDecodedInstruction :
    (State.reset.issueFirst (.command 0x27E [] [])).pending = [.single (.command 0x27E [] [])] ∧
    okOf (decode (.command 0x27E [] [])) = some (.feed 0x7E) ∧
    (State.reset.issueFirst (.inbound [])).pending = [.single (.inbound [])] ∧
    errorOf (decode (.inbound [])) = some .inboundDelimiter ∧ State.reset.pending = [] := by decide

theorem witness_RunFoldsTheOperations :
    [Request.command 0x27E [] [], .chunk [0x00]].map decode = [Instr.feed 0x7E, .feedn [0x00]].map .ok ∧
    { State.reset with pending := [.single (.command 0x27E [] []), .single (.chunk [0x00])] }.pending =
      [Request.command 0x27E [] [], .chunk [0x00]].map .single := ⟨rfl, rfl⟩

theorem witness_OverlapOnTheDecoderIsRefused :
    { State.reset with pending := [.overlap [.command 0x27E [] [], .command 0x300 [] []]] }.pending =
      [.overlap [.command 0x27E [] [], .command 0x300 [] []]] ∧
    [Request.command 0x27E [] [], .command 0x300 [] []].map decode =
      ([] ++ Instr.feed 0x7E :: ([] ++ Instr.abort :: [])).map .ok := ⟨rfl, rfl⟩

/-- Two `FEED`s with a `CSUM` between them are refused (R59). -/
theorem test_overlap_refused :
    refusalOf (step { midBody with pending :=
      [.overlap [.command 0x206 [] [], .command 0x400 [] [], .command 0x26F [] []]] }) = some .overlap := by decide

/-- Three at once complete: two `CSUM`s with a `FEED` between them. -/
theorem witness_AdmittedOverlapCompletes :
    midBody.Inv ∧
    [Request.command 0x400 [0x81] [], .command 0x206 [] [], .command 0x400 [] []].map decode =
      ([Instr.csum [0x81]] ++ Instr.feed 0x06 :: [Instr.csum []]).map .ok ∧
    resultsOf (step { midBody with pending :=
      [.overlap [.command 0x400 [0x81] [], .command 0x206 [] [], .command 0x400 [] []]] }) =
      some [.value (.byte 0x7E), .none, .value (.byte 0xFF)] := ⟨midBody_inv, rfl, by decide⟩

theorem witness_AdmittedOverlapHasNoOrder :
    ([Request.command 0x400 [0x81] [], .command 0x206 [] []] : List Request).Perm
      [.command 0x206 [] [], .command 0x400 [0x81] []] := by decide

theorem witness_NewInstanceIsInTheResetState : resultsOf (exec .rst midBody) = some [.none] := by decide

theorem witness_StepKeepsTheInvariant :
    (midBody.issueFirst (.command 0x206 [] [])).Inv ∧
    absOf (step (midBody.issueFirst (.command 0x206 [] []))) = some (.readingBody 3 [0x8A, 0x06]) :=
  ⟨⟨by decide, by decide, by decide, by decide⟩, by decide⟩

theorem witness_NoStepFaults : (fullBody.issueFirst (.command 0x26F [] [])).Inv :=
  ⟨by decide, by decide, by decide, by decide⟩

theorem witness_RegistersRealiseTheAbstractDecoder :
    midBody.Inv ∧ midBody.abs = .readingBody 3 [0x8A] := ⟨midBody_inv, by decide⟩

/-- Two states that differ in every register `Seeking` does not give a meaning. -/
theorem witness_UnspecifiedRegistersCannotBeSeen :
    fullBody.toSeeking.Inv ∧ State.reset.Inv ∧ fullBody.toSeeking.sameView State.reset ∧
    fullBody.toSeeking ≠ State.reset :=
  ⟨⟨by decide, by decide, by decide, by decide⟩, reset_inv, ⟨by decide, by decide, by decide⟩, by decide⟩

theorem witness_EncLaysOutTheFrame : Config.bcastAddr.length = 8 ∧ (List.replicate 65520 (0 : Byte)).length ≤ 65520 :=
  ⟨by decide, Nat.le_of_eq List.length_replicate⟩

theorem witness_EncodedFrameSumsToFF :
    exec (.enc Config.bcastAddr []) State.reset =
      .next { State.reset with results := State.reset.results ++ [.bytes vectorE2] } := rfl

theorem witness_EncIsInjective :
    exec (.enc Config.bcastAddr []) State.reset =
      .next { State.reset with results := State.reset.results ++ [.bytes vectorE2] } ∧
    exec (.enc Config.bcastAddr []) midBody =
      .next { midBody with results := midBody.results ++ [.bytes vectorE2] } := ⟨rfl, rfl⟩

theorem witness_StreamingEncoderAgrees : Config.bcastAddr.length = 8 ∧ ([] : List Byte).length ≤ 65520 := by decide

theorem witness_TxreqIsTheFrameEncProduces : (Instr.txreq Config.bcastAddr []).wellFormed = true := by decide

theorem witness_CsumIgnoresByteOrder : ([0x81, 0x7E] : List Byte).Perm [0x7E, 0x81] := by decide

theorem witness_SingleByteErrorsAreDetected :
    exec (.csvfy [0x81] 0x7E) State.reset =
      .next { State.reset with results := State.reset.results ++ [.value (.bit 1)] } ∧
    0 < ([0x81] : List Byte).length ∧ ([0x81] : List Byte)[0]? ≠ some 0x80 ∧ (0x80 : Byte) ≠ 0x7E :=
  ⟨rfl, by decide, by decide, by decide⟩

theorem witness_FeedInSeeking : State.reset.rxState = .seeking ∧ (0x7F : Byte) ≠ 0x7E := by decide

theorem witness_FeedTakesTheHighLengthByte : awaitHigh.rxState = .readingLength ∧ awaitHigh.highByteSeen = false := by
  decide

/-- Both sides of the boundary of the degenerate length. -/
theorem witness_FeedTakesTheLowLengthByte :
    (awaitLow 0).rxState = .readingLength ∧ (awaitLow 0).highByteSeen = true ∧
    (awaitLow 0).lenHi.toNat * 256 + (1 : Byte).toNat ≤ 1 ∧ 1 < (awaitLow 0).lenHi.toNat * 256 + (2 : Byte).toNat := by
  decide

theorem witness_FeedBuffersABodyByte :
    midBody.rxbuf.wf = true ∧ midBody.rxState = .readingBody ∧
    midBody.rxCount.toNat + 1 < midBody.declaredLen.toNat - 1 + 1 := by decide

theorem witness_FeedFinishesTheFrame :
    fullBody.Inv ∧ fullBody.rxState = .readingBody ∧ fullBody.rxCount.toNat = fullBody.declaredLen.toNat - 1 :=
  ⟨fullBody_inv, by decide, by decide⟩

theorem witness_FeedIsTotal : midBody.Inv := midBody_inv

theorem witness_FeedStopsOnlyOutsideRxbuf :
    exec (.feed 0) beyondBuffer = .fault .rxbufRange ∧ beyondBuffer.rxState = .readingBody ∧
    65536 ≤ beyondBuffer.rxCount.toNat := ⟨rfl, by decide, by decide⟩

/-- Every guard of the frame condition is met by some state in which `FEED` completes. -/
theorem witness_FeedFrameCondition :
    absOf (exec (.feed 0x06) midBody) = some (.readingBody 3 [0x8A, 0x06]) ∧ midBody.storeIndex ≠ some 0 ∧
    absOf (exec (.feed 0x00) awaitHigh) = some (.readingLength (some 0x00)) ∧
    absOf (exec (.feed 0x00) State.reset) = some .seeking := by decide

theorem witness_FramesAreAlwaysVerified :
    fullBody.Inv ∧ resultsOf (exec (.feed 0x6F) fullBody) = some (fullBody.results ++ [.frame ⟨[0x8A, 0x06]⟩]) :=
  ⟨fullBody_inv, by decide⟩

theorem witness_StoresStayInsideRxbuf :
    fullBody.Inv ∧ fullBody.storeIndex = some 2 ∧ absOf (exec (.feed 0x6F) fullBody) = some .seeking :=
  ⟨fullBody_inv, by decide, by decide⟩

theorem witness_FeednIsItsFeeds : State.reset.Inv := reset_inv

/-- The frame condition of a chunk: a chunk of one byte stores at index 1 alone, so index 0 meets the
condition; and all three forms complete. -/
theorem witness_ChunkFrameCondition :
    absOf (exec (.feedn [0x06]) midBody) = some (.readingBody 3 [0x8A, 0x06]) ∧ midBody.storeIndex ≠ some 0 ∧
    absOf (exec (.decode [0x00]) midBody) = some .seeking ∧
    absOf (exec (.rxframe 2 [0x81, 0x7E]) State.reset) = some .seeking := by decide

theorem witness_DecodeStartsAfresh : midBody.rxbuf.wf = true ∧ State.reset.rxbuf.wf = true := by decide

theorem witness_ExpansionsAgree :
    absOf (execAll (expand (.rxframe 2 [0x81, 0x7E])) State.reset) = some .seeking ∧
    absOf (execAll (expand (.decode [0x7E])) midBody) = some (.readingLength none) := by decide

/-- At the largest degenerate length and at the smallest length with a body. -/
theorem witness_InboundFrameGivesItsResult :
    (Instr.rxframe 1 []).wellFormed = true ∧ (1 : BitVec 16).toNat ≤ 1 ∧
    (Instr.rxframe 2 [0x81, 0x7E]).wellFormed = true ∧ 1 < (2 : BitVec 16).toNat ∧
    State.reset.rxbuf.wf = true ∧ State.reset.rxState = .seeking := by decide

theorem witness_NoResultBeforeTheLastByte :
    (Instr.rxframe 2 [0x81, 0x7E]).wellFormed = true ∧ 1 < (2 : BitVec 16).toNat ∧ State.reset.rxbuf.wf = true ∧
    State.reset.rxState = .seeking ∧ 0 < 4 ∧ 4 < 3 + ([0x81, 0x7E] : List Byte).length := by decide

theorem witness_DecodeOfEncodedFrame :
    Config.bcastAddr.length = 8 ∧ ([] : List Byte).length ≤ 65520 ∧ midBody.rxbuf.wf = true ∧
    State.reset.rxState = .seeking := by decide

theorem witness_GarbageIsSkipped : State.reset.rxState = .seeking ∧ (0x7E : Byte) ∉ ([0x00, 0x55, 0xFF] : List Byte) := by
  decide

theorem witness_BackToBackFrames :
    State.reset.rxbuf.wf = true ∧ State.reset.rxState = .seeking ∧
    ∀ f ∈ ([([0x00], 2, [0x81, 0x7E]), ([], 2, [0x00, 0x00])] : List (List Byte × BitVec 16 × List Byte)),
      (0x7E : Byte) ∉ f.1 ∧ 1 < f.2.1.toNat ∧ f.2.2.length = f.2.1.toNat := by decide

theorem witness_DamagedFrameIsReported :
    State.reset.rxbuf.wf = true ∧
    exec (.enc Config.bcastAddr []) State.reset =
      .next { State.reset with results := State.reset.results ++ [.bytes vectorE2] } ∧
    3 ≤ 17 ∧ 17 < vectorE2.length ∧ vectorE2[17]? ≠ some 0x73 :=
  ⟨by decide, rfl, by decide, by decide, by decide⟩

/-- A body of exactly 14 bytes has every view. -/
theorem witness_ViewsAreThePositionalMap :
    Frame.frameType ⟨(vectorE2.drop 3).dropLast⟩ = some 0x10 ∧ Frame.frameId ⟨(vectorE2.drop 3).dropLast⟩ = some 0x01 ∧
    Frame.netAddr ⟨(vectorE2.drop 3).dropLast⟩ = some [0xFF, 0xFE] ∧
    Frame.radius ⟨(vectorE2.drop 3).dropLast⟩ = some 0x00 ∧
    Frame.options ⟨(vectorE2.drop 3).dropLast⟩ = some 0x00 ∧ Frame.payload ⟨(vectorE2.drop 3).dropLast⟩ = some [] ∧
    Frame.address ⟨(vectorE2.drop 3).dropLast⟩ = some Config.bcastAddr := by decide

theorem witness_ReturnedBodiesAreNeverEmpty :
    fullBody.Inv ∧ resultsOf (exec (.feed 0x6F) fullBody) = some (fullBody.results ++ [.frame ⟨[0x8A, 0x06]⟩]) ∧
    Response.frame ⟨[0x8A, 0x06]⟩ ∈ [Response.frame ⟨[0x8A, 0x06]⟩] := ⟨fullBody_inv, by decide, by decide⟩

theorem witness_AbortReportsATruncatedFrame : State.reset.rxState = .seeking ∧ awaitHigh.rxState ≠ .seeking := by decide

theorem witness_ReservedCodesAreRefused :
    opOf 0x600 = 6 ∧ opOf 0x6FF = 6 ∧ opOf 0x700 = 7 ∧ opOf 0x7FF = 7 := by decide

theorem witness_EveryOperationCompletes :
    midBody.Inv ∧ expand .abort = [.abort] ∧ Instr.abort ≠ .reserved6 ∧ Instr.abort ≠ .reserved7 :=
  ⟨midBody_inv, by decide, by decide, by decide⟩

theorem witness_ResultsByOperation : resultsOf (exec (.feed 0x00) State.reset) = some [.none] := by decide

/-- Both kinds of error of the statement: one that changes nothing, one that goes to `Seeking`. -/
theorem witness_ErrorsLeaveTheBlockReady :
    expand (.enc [] []) = [.enc [] []] ∧
    resultsOf (exec (.enc [] []) midBody) = some (midBody.results ++ [ErrorKind.invalidArgument.response]) ∧
    expand .abort = [.abort] ∧
    resultsOf (exec .abort midBody) = some (midBody.results ++ [ErrorKind.truncated.response]) := by decide

end Sys2Proof.Tests
end

section
/-! PROOF. The outbound frame's layout (Table R70) and the positional map of a body (Table R76). -/

namespace Sys2Proof.Machine

/-! The bytes of an outbound frame. -/

/-- The high length byte of Table R70, as a quotient. -/
theorem lenHiByte_eq_ofNat (L : Nat) : lenHiByte L = BitVec.ofNat 8 (L / 256) :=
  BitVec.eq_of_toNat_eq (by rw [lenHiByte_toNat, BitVec.toNat_ofNat])

/-- The low length byte of Table R70, as a remainder. -/
theorem lenLoByte_eq_ofNat (L : Nat) : lenLoByte L = BitVec.ofNat 8 (L % 256) :=
  BitVec.eq_of_toNat_eq (by rw [lenLoByte_toNat, BitVec.toNat_ofNat, Nat.mod_mod])

theorem frameLen_eq (P : List Byte) : frameLen P = 15 + P.length := by
  simp only [frameLen, Config.metaLen, Config.lenBias]
  omega

/-- The fixed bytes before the address: delimiter, length field, frame type, frame id. -/
def txPrefix (n : Nat) : List Byte :=
  [0x7E, BitVec.ofNat 8 ((15 + n) / 256), BitVec.ofNat 8 ((15 + n) % 256), 0x10, 0x01]

/-- The fixed bytes between the address and the payload: network address, radius, options. -/
def txFixed : List Byte := [0xFF, 0xFE, 0x00, 0x00]

theorem txPrefix_length (n : Nat) : (txPrefix n).length = 5 := rfl

theorem txFixed_length : txFixed.length = 4 := rfl

/-- The frame as the five segments of Table R70. -/
theorem txFrame_eq_segments (A P : List Byte) :
    txFrame A P = txPrefix P.length ++ (A ++ (txFixed ++ (P ++ [csum (txBody A P)]))) := by
  simp [txFrame, txBody, txPrefix, txFixed, Config.delim, Config.ftTxreq, Config.frameId, Config.netAddr,
    Config.radius, Config.options, lenHiByte_eq_ofNat, lenLoByte_eq_ofNat, frameLen_eq]

/-- A position past the first segment is a position in the rest. -/
theorem getElem?_append_add (X Y : List Byte) {k : Nat} (hX : X.length = k) (i : Nat) :
    (X ++ Y)[k + i]? = Y[i]? := by
  rw [List.getElem?_append_right (by omega), hX, Nat.add_sub_cancel_left]

theorem txFrame_getElem?_prefix (A P : List Byte) (i : Nat) (hi : i < 5) :
    (txFrame A P)[i]? = (txPrefix P.length)[i]? := by
  rw [txFrame_eq_segments, List.getElem?_append_left hi]

/-- From offset 5 on stand the address and what follows it. -/
theorem txFrame_getElem?_afterPrefix (A P : List Byte) (i : Nat) :
    (txFrame A P)[5 + i]? = (A ++ (txFixed ++ (P ++ [csum (txBody A P)])))[i]? := by
  rw [txFrame_eq_segments, getElem?_append_add _ _ (txPrefix_length _)]

theorem txFrame_getElem?_address (A P : List Byte) (i : Nat) (hi : i < A.length) :
    (txFrame A P)[5 + i]? = A[i]? := by
  rw [txFrame_getElem?_afterPrefix, List.getElem?_append_left hi]

/-- From offset 13 on stand the fixed bytes and what follows them. -/
theorem txFrame_getElem?_afterAddress (A P : List Byte) (hA : A.length = 8) (i : Nat) :
    (txFrame A P)[13 + i]? = (txFixed ++ (P ++ [csum (txBody A P)]))[i]? := by
  rw [show 13 + i = 5 + (8 + i) by omega, txFrame_getElem?_afterPrefix, getElem?_append_add _ _ hA]

theorem txFrame_getElem?_fixed (A P : List Byte) (hA : A.length = 8) (i : Nat) (hi : i < 4) :
    (txFrame A P)[13 + i]? = txFixed[i]? := by
  rw [txFrame_getElem?_afterAddress A P hA, List.getElem?_append_left hi]

/-- From offset 17 on stand the payload and the checksum byte. -/
theorem txFrame_getElem?_afterFixed (A P : List Byte) (hA : A.length = 8) (i : Nat) :
    (txFrame A P)[17 + i]? = (P ++ [csum (txBody A P)])[i]? := by
  rw [show 17 + i = 13 + (4 + i) by omega, txFrame_getElem?_afterAddress A P hA,
    getElem?_append_add _ _ txFixed_length]

theorem txFrame_getElem?_payload (A P : List Byte) (hA : A.length = 8) (i : Nat) (hi : i < P.length) :
    (txFrame A P)[17 + i]? = P[i]? := by
  rw [txFrame_getElem?_afterFixed A P hA, List.getElem?_append_left hi]

theorem txFrame_getElem?_checksum (A P : List Byte) (hA : A.length = 8) :
    (txFrame A P)[17 + P.length]? = some (csum (txBody A P)) := by
  rw [txFrame_getElem?_afterFixed A P hA, List.getElem?_concat_length]

/-- The bytes between the length field and the checksum byte are the body. -/
theorem txFrame_drop_take (A P : List Byte) (hA : A.length = 8) :
    ((txFrame A P).drop 3).take (14 + P.length) = txBody A P := by
  have hlen : (txBody A P).length = 14 + P.length := by rw [txBody_length, hA]
  have hdrop : (txFrame A P).drop 3 = txBody A P ++ [csum (txBody A P)] := rfl
  rw [hdrop, List.take_left' hlen]

/-- `ENC` on legal operands returns the frame and touches nothing (R100, R102). -/
theorem exec_enc_of_legal (A P : List Byte) (s : State) (hA : A.length = 8) (hP : P.length ≤ 65520) :
    exec (.enc A P) s = .next (s.give [.bytes (txFrame A P)]) := by
  have hok : encOperandsBad A P = false := (encOperandsBad_eq_false_iff A P).mpr ⟨hA, hP⟩
  simp [exec, execEnc, complete, encodeFrame_eq, hok]

/-- Settles O15: `ENC` returns `txFrame A P`, whose bytes are read off its five segments. -/
theorem encLaysOutTheFrame : Obligations.EncLaysOutTheFrame := by
  intro A P s hA hP
  have hlen : (txFrame A P).length = 18 + P.length := by rw [txFrame_length, hA]
  have hpre := txFrame_getElem?_prefix A P
  have hfix := txFrame_getElem?_fixed A P hA
  have hsum := txFrame_getElem?_checksum A P hA
  refine ⟨txFrame A P, exec_enc_of_legal A P s hA hP, hlen,
    hpre 0 (by decide), hpre 1 (by decide), hpre 2 (by decide), hpre 3 (by decide), hpre 4 (by decide),
    fun i hi => txFrame_getElem?_address A P i (hA ▸ hi),
    hfix 0 (by decide), hfix 1 (by decide), hfix 2 (by decide), hfix 3 (by decide),
    txFrame_getElem?_payload A P hA, ?_⟩
  rw [hsum, txFrame_drop_take A P hA, csum]

/-! The views of a returned frame. -/

/-- A view of several bytes holds the bytes of the body at its offset. -/
theorem Frame.slice_positional {f : Frame} {lo n : Nat} {X : List Byte} (h : f.slice lo n = some X) :
    X.length = n ∧ ∀ i, i < n → X[i]? = f.body[lo + i]? := by
  obtain ⟨hfit, rfl⟩ := (f.slice_eq_some lo n X).mp h
  refine ⟨by rw [List.length_take, List.length_drop]; omega, fun i hi => ?_⟩
  rw [List.getElem?_take_of_lt hi, List.getElem?_drop]

theorem Frame.slice_isSome_iff (f : Frame) (lo n : Nat) : (f.slice lo n).isSome ↔ lo + n ≤ f.body.length := by
  simp [Option.isSome_iff_exists, Frame.slice_eq_some]

/-- The payload view holds the bytes of the body from offset 14 on. -/
theorem Frame.payload_positional {f : Frame} {P : List Byte} (h : f.payload = some P) :
    P.length = f.body.length - 14 ∧ ∀ i : Nat, P[i]? = f.body[14 + i]? := by
  obtain ⟨-, rfl⟩ := (f.payload_eq_some P).mp h
  exact ⟨List.length_drop, fun i => List.getElem?_drop⟩

theorem Frame.payload_isSome_iff (f : Frame) : f.payload.isSome ↔ 14 ≤ f.body.length := by
  simp [Option.isSome_iff_exists, Frame.payload_eq_some, Config.metaLen]

/-- A one-byte view at offset `k` is present exactly when the body reaches past `k`. -/
theorem getElem?_isSome_iff_succ_le (l : List Byte) (k : Nat) : l[k]?.isSome ↔ k + 1 ≤ l.length := by
  rw [Option.isSome_iff_ne_none, ne_eq, List.getElem?_eq_none_iff, Nat.not_le, Nat.succ_le_iff]

/-- A one-byte view heads the rest of the body at its offset. -/
theorem drop_eq_cons_of_getElem? {l : List Byte} {k : Nat} {b : Byte} (h : l[k]? = some b) :
    l.drop k = b :: l.drop (k + 1) := by
  obtain ⟨hk, rfl⟩ := List.getElem?_eq_some_iff.mp h
  exact List.drop_eq_getElem_cons hk

/-- A view of several bytes begins the rest of the body at its offset. -/
theorem Frame.drop_eq_append_of_slice {f : Frame} {lo n : Nat} {X : List Byte} (h : f.slice lo n = some X) :
    f.body.drop lo = X ++ f.body.drop (lo + n) := by
  obtain ⟨-, rfl⟩ := (f.slice_eq_some lo n X).mp h
  rw [← List.drop_drop, List.take_append_drop]

/-- The seven views, where all are present, are the body in order: each hands over to the next. -/
theorem Frame.body_eq_views {f : Frame} {ft fi r o : Byte} {A N P : List Byte}
    (hft : f.frameType = some ft) (hfi : f.frameId = some fi) (hA : f.address = some A)
    (hN : f.netAddr = some N) (hr : f.radius = some r) (ho : f.options = some o) (hP : f.payload = some P) :
    f.body = [ft, fi] ++ A ++ N ++ [r, o] ++ P :=
  calc f.body
    _ = ft :: f.body.drop 1 := drop_eq_cons_of_getElem? (k := 0) hft
    _ = ft :: fi :: f.body.drop 2 := by rw [drop_eq_cons_of_getElem? hfi]
    _ = ft :: fi :: (A ++ f.body.drop 10) := by rw [Frame.drop_eq_append_of_slice hA]; rfl
    _ = ft :: fi :: (A ++ (N ++ f.body.drop 12)) := by rw [Frame.drop_eq_append_of_slice hN]
    _ = ft :: fi :: (A ++ (N ++ r :: f.body.drop 13)) := by rw [drop_eq_cons_of_getElem? hr]
    _ = ft :: fi :: (A ++ (N ++ r :: o :: f.body.drop 14)) := by rw [drop_eq_cons_of_getElem? ho]
    _ = ft :: fi :: (A ++ (N ++ r :: o :: P)) := by rw [((f.payload_eq_some P).mp hP).2, Config.metaLen]
    _ = [ft, fi] ++ A ++ N ++ [r, o] ++ P := by simp

/-- Settles O49: each view by the positional fact of its kind (one byte, several bytes, payload). -/
theorem viewsAreThePositionalMap : Obligations.ViewsAreThePositionalMap := by
  intro f
  have hbyte := getElem?_isSome_iff_succ_le f.body
  have hslice := f.slice_isSome_iff
  exact ⟨rfl, rfl, fun _ => Frame.slice_positional, fun _ => Frame.slice_positional, rfl, rfl,
    fun _ => Frame.payload_positional,
    hbyte 0, hbyte 1, hslice 2 8, hslice 10 2, hbyte 12, hbyte 13, f.payload_isSome_iff,
    fun _ _ _ _ _ _ _ => Frame.body_eq_views⟩

end Sys2Proof.Machine
end

section
/-! PROOF. `ENC`: its operand checks and its purity (R101, R103). -/

namespace Sys2Proof.Machine

/-- The operand checks with the numbers of R101. -/
theorem encOperandsBad_eq_true_iff (A P : List Byte) :
    encOperandsBad A P = true ↔ A.length ≠ 8 ∨ 14 + P.length + 1 > 65535 := by
  rw [encOperandsBad, Bool.or_eq_true, decide_eq_true_iff, decide_eq_true_iff]
  rfl

/-- Giving results is injective in the results given. -/
theorem State.give_inj (s : State) (rs rs' : List Response) : s.give rs = s.give rs' ↔ rs = rs' :=
  ⟨fun h => List.append_cancel_left (congrArg State.results h), fun h => h ▸ rfl⟩

/-- `ENC` on operands that fail a check returns the error and touches nothing (R101). -/
theorem exec_enc_of_illegal {A P : List Byte} (s : State) (hbad : encOperandsBad A P = true) :
    exec (.enc A P) s = .next (s.give [.errInvalidArgument]) := by
  simp [exec, execEnc, complete, encodeFrame_eq, hbad]

/-- Settles O16: legal operands give a frame's bytes, which are not the error. -/
theorem encChecksItsOperands : Obligations.EncChecksItsOperands := by
  intro A P s
  rw [← encOperandsBad_eq_true_iff]
  refine ⟨fun herr => ?_, exec_enc_of_illegal s⟩
  by_contra hbad
  obtain ⟨hA, hP⟩ := (encOperandsBad_eq_false_iff A P).mp (Bool.eq_false_of_not_eq_true hbad)
  have hgive : s.give [.bytes (txFrame A P)] = s.give [.errInvalidArgument] :=
    Host.Outcome.next.inj ((exec_enc_of_legal A P s hA hP).symm.trans herr)
  simp [State.give_inj] at hgive

/-- Settles O17: the checks read the operands alone, and choose between the error and the whole frame. -/
theorem encIsPure : Obligations.EncIsPure := by
  intro A P
  cases hbad : encOperandsBad A P with
  | true => exact ⟨.errInvalidArgument, fun s => exec_enc_of_illegal s hbad, .inl rfl⟩
  | false =>
    obtain ⟨hA, hP⟩ := (encOperandsBad_eq_false_iff A P).mp hbad
    have hlen : (txFrame A P).length = 18 + P.length := by rw [txFrame_length, hA, Config.addrLen]
    exact ⟨.bytes (txFrame A P), fun s => exec_enc_of_legal A P s hA hP, .inr ⟨_, rfl, hlen⟩⟩

end Sys2Proof.Machine
end

section
/-! PROOF. The checksum unit: what `CSUM` and `CSVFY` return (R120, R122). -/

namespace Sys2Proof.Machine

/-- `CSUM` returns the checksum (R120) and touches nothing: its accumulator ends at `csum S` (R125). -/
theorem exec_csum_eq (S : List Byte) (s : State) :
    exec (.csum S) s = .next (s.give [.value (.byte (csum S))]) := by
  rw [← accFinal_accOf]
  rfl

/-- `CSVFY` returns the verdict (R122) and touches nothing: its accumulator ends at 0xFF exactly when
`verify` holds (R126). -/
theorem exec_csvfy_eq (S : List Byte) (c : Byte) (s : State) :
    exec (.csvfy S c) s = .next (s.give [.value (.bit (if verify S c then 1 else 0))]) := by
  simp only [verify_eq_true_iff_acc]
  rfl

/-- Settles O23: `csum` is by definition R120's value. -/
theorem csumReturnsTheChecksum : Obligations.CsumReturnsTheChecksum := exec_csum_eq

/-- Settles O25: the verdict, read as the low byte of the sum. -/
theorem csvfyReturnsTheVerdict : Obligations.CsvfyReturnsTheVerdict := by
  intro S c s
  rw [exec_csvfy_eq]
  simp only [verify_eq_true_iff]
  rfl

end Sys2Proof.Machine
end

section
/-! PROOF. `FEED`, arm by arm (R140 to R146), and `ABORT` (R153). -/

namespace Sys2Proof.Machine

/-- Results given on the caller's side a state still has. -/
theorem State.withCaller_eq_give {s t : State} (hpend : t.pending = s.pending) (hres : t.results = s.results)
    (qs : List Response) : t.withCaller s.pending (s.results ++ qs) = t.give qs := by
  rw [← hpend, ← hres]
  rfl

/-- `FEED` does not see the results given before it (R35): it is performed with its arm's result and
state after any of them. -/
theorem exec_feed_give {b : Byte} {s t : State} {r : Response} (h : feedByte b s = .ok (r, t))
    (qs : List Response) : exec (.feed b) (s.give qs) = .next (t.give (qs ++ [r])) := by
  obtain ⟨hpend, hres⟩ := feedByte_keeps_caller h
  have hgive : feedByte b (s.give qs) = .ok (r, t.give qs) := by
    rw [← State.withCaller_eq_give rfl rfl, feedByte_caller, h, ← State.withCaller_eq_give hpend hres]
    rfl
  simp only [exec, execFeed, hgive, complete, State.give_give]

/-- A `FEED` whose arm completes is performed with that arm's result and state. -/
theorem exec_feed_of_ok {b : Byte} {s t : State} {r : Response} (h : feedByte b s = .ok (r, t)) :
    exec (.feed b) s = .next (t.give [r]) := by
  simpa using exec_feed_give h []

/-! The arms before the body. -/

/-- The arm of R141. -/
theorem feedByte_seeking (b : Byte) {s : State} (hs : s.rxState = .seeking) :
    feedByte b s = .ok (.none, if b = Config.delim then s.startLength else s) := by
  simp only [feedByte, hs, feedSeeking]
  split <;> rfl

/-- The arm of R142. -/
theorem feedByte_lengthHigh (b : Byte) {s : State} (hs : s.rxState = .readingLength)
    (hseen : s.highByteSeen = false) : feedByte b s = .ok (.none, s.bufferLenHi b) := by
  simp [feedByte, hs, feedLength, hseen]

/-- The arm of R143, with R144's silent framing error. -/
theorem feedByte_lengthLow (b : Byte) {s : State} (hs : s.rxState = .readingLength)
    (hseen : s.highByteSeen = true) :
    feedByte b s = .ok (.none, if (assembleLen s.lenHi b).toNat ≤ Config.lenBias
      then (s.setDeclaredLen b).toSeeking else (s.setDeclaredLen b).enterBody) := by
  simp only [feedByte, hs, feedLength, hseen, if_true, feedLengthLow]
  split <;> rfl

/-- Settles O28: the two branches of the `Seeking` arm. -/
theorem feedInSeeking : Obligations.FeedInSeeking := by
  intro b s hs
  rw [exec_feed_of_ok (feedByte_seeking b hs)]
  refine ⟨fun (hdelim : b = Config.delim) => ?_, fun (hother : b ≠ Config.delim) => ?_⟩
  · rw [if_pos hdelim]
    rfl
  · rw [if_neg hother]
    rfl

/-- Settles O29: the first byte in `ReadingLength` is only buffered. -/
theorem feedTakesTheHighLengthByte : Obligations.FeedTakesTheHighLengthByte :=
  fun b _ hs hseen => exec_feed_of_ok (feedByte_lengthHigh b hs hseen)

/-- The assembled length as the number its two bytes stand for (R77). -/
theorem assembleLen_eq_ofNat (hi lo : Byte) :
    assembleLen hi lo = BitVec.ofNat 16 (hi.toNat * 256 + lo.toNat) := by
  rw [← assembleLen_toNat, BitVec.ofNat_toNat, BitVec.setWidth_eq]

/-- Settles O30: the length is degenerate exactly when its number is at most `LEN_BIAS`. -/
theorem feedTakesTheLowLengthByte : Obligations.FeedTakesTheLowLengthByte := by
  intro b s hs hseen
  rw [exec_feed_of_ok (feedByte_lengthLow b hs hseen), ← assembleLen_eq_ofNat, ← assembleLen_toNat]
  refine ⟨fun (hdegenerate : _ ≤ Config.lenBias) => ?_, fun (hbody : Config.lenBias < _) => ?_⟩
  · rw [if_pos hdegenerate]
    rfl
  · rw [if_neg (Nat.not_le.mpr hbody)]
    rfl

/-! The body arm. -/

theorem State.bodyLen_le (s : State) : s.bodyLen ≤ 65534 := by
  have := s.declaredLen.isLt
  simp only [State.bodyLen, Config.lenBias]
  omega

/-- The 17-bit count does not wrap at an index of `RXBUF` (R26). -/
theorem State.storeBody_rxCount_toNat (b : Byte) {s : State} (h : s.rxCount.toNat < Config.rxBufCap) :
    (s.storeBody b).rxCount.toNat = s.rxCount.toNat + 1 := by
  simp only [Config.rxBufCap] at h
  simp only [State.storeBody_rxCount]
  bv_omega

/-- Up to the checksum byte, a `FEED` in `ReadingBody` stores its byte inside `RXBUF` (R64). -/
theorem feedByte_body (b : Byte) {s : State} (hs : s.rxState = .readingBody)
    (hcount : s.rxCount.toNat ≤ s.bodyLen) :
    s.rxCount.toNat < Config.rxBufCap ∧ feedByte b s = .ok (finishBody (s.storeBody b)) := by
  have hcap : s.rxCount.toNat < Config.rxBufCap := by
    have := s.bodyLen_le
    simp only [Config.rxBufCap]
    omega
  exact ⟨hcap, by simp only [feedByte, hs, feedBody, hcap, if_true]⟩

/-- A byte before the checksum byte is stored, counted and summed (R145). -/
theorem feedByte_bodyByte (b : Byte) {s : State} (hs : s.rxState = .readingBody)
    (hcount : s.rxCount.toNat < s.bodyLen) : feedByte b s = .ok (.none, s.storeBody b) := by
  obtain ⟨hcap, hfeed⟩ := feedByte_body b hs hcount.le
  have hpartial : (s.storeBody b).rxCount.toNat < (s.storeBody b).bodyLen + 1 := by
    rw [State.storeBody_rxCount_toNat b hcap]
    exact Nat.succ_lt_succ hcount
  rw [hfeed, finishBody]
  exact congrArg Except.ok (if_pos hpartial)

/-- The checksum byte finishes the frame: the verdict is over the bytes buffered before it (R146). -/
theorem feedByte_checksumByte (b : Byte) {s : State} (hwf : s.rxbuf.wf = true)
    (hs : s.rxState = .readingBody) (hcount : s.rxCount.toNat = s.bodyLen) :
    feedByte b s = .ok (if verify (s.rxbuf.prefixBytes s.bodyLen) b
      then .frame ⟨s.rxbuf.prefixBytes s.bodyLen⟩ else .errChecksumMismatch, (s.storeBody b).toSeeking) := by
  obtain ⟨hcap, hfeed⟩ := feedByte_body b hs hcount.le
  have hlen : (s.storeBody b).bodyLen = s.bodyLen := rfl
  have hwhole : (s.storeBody b).rxCount.toNat = s.bodyLen + 1 := by
    rw [State.storeBody_rxCount_toNat b hcap, hcount]
  have hbody : (s.storeBody b).rxbuf.prefixBytes s.bodyLen = s.rxbuf.prefixBytes s.bodyLen :=
    Memory.prefixBytes_write s.rxbuf b hcount.ge
  have hsum : (s.storeBody b).rxbuf.read s.bodyLen = b := by
    rw [← hcount]
    exact Memory.read_write_same _ b hwf
  have hcases := finishBody_cases (s.storeBody b)
  rw [hlen, hwhole, hbody, hsum] at hcases
  rw [hfeed]
  obtain ⟨hlt, -⟩ | ⟨-, hv, hfinish⟩ | ⟨-, hv, hfinish⟩ := hcases
  · exact absurd hlt (Nat.lt_irrefl _)
  · rw [hfinish, hv]
    rfl
  · rw [hfinish, hv]
    rfl

/-- Settles O31: the store is the one write at `rx_count`, so every other byte reads as before. -/
theorem feedBuffersABodyByte : Obligations.FeedBuffersABodyByte := by
  intro b s hwf hs hbefore
  have hcount : s.rxCount.toNat < s.bodyLen := Nat.lt_of_succ_lt_succ hbefore
  exact ⟨_, exec_feed_of_ok (feedByte_bodyByte b hs hcount), rfl,
    State.storeBody_rxCount_toNat b (feedByte_body b hs hcount.le).1,
    Memory.read_write_same _ b hwf, fun _ hother => Memory.read_write_other s.rxbuf b hother⟩

/-- Settles O32: `rx_sum` is the buffered bytes' sum (the invariant), so adding the checksum byte gives
the verdict's sum. -/
theorem feedFinishesTheFrame : Obligations.FeedFinishesTheFrame := by
  intro b s hinv hs hcount
  have hfeed := exec_feed_of_ok (feedByte_checksumByte b hinv.canonical hs hcount)
  simp only [verify_eq_true_iff] at hfeed
  refine ⟨_, hfeed, rfl, ?_, Memory.read_write_same _ b hinv.canonical,
    fun _ hother => Memory.read_write_other s.rxbuf b hother⟩
  have hsum : (accAdd s.rxSum b).toNat =
      (byteSum (s.rxbuf.prefixBytes (s.declaredLen.toNat - 1)) + b.toNat) % 256 := by
    rw [accAdd_toNat, hinv.sumBuffered hs, hcount, Nat.mod_add_mod]
  rw [← hsum]
  exact BitVec.toNat_inj.symm

/-- `ABORT` puts the decoder in `Seeking` and reports a truncated frame unless it was there (R153). -/
theorem exec_abort_eq (s : State) :
    exec .abort s = .next (s.toSeeking.give [if s.rxState = .seeking then .none else .errTruncated]) := by
  simp only [exec, execAbort, complete, abortDecoder_eq]

/-- Settles O51: code 3 is `ABORT` whatever `imm` is; in `Seeking`, writing `Seeking` changes nothing. -/
theorem abortReportsATruncatedFrame : Obligations.AbortReportsATruncatedFrame := by
  refine ⟨fun imm => congrArg Except.ok (decodeCommand_commandWord 3 imm [] []), fun s => ?_⟩
  rw [exec_abort_eq]
  refine ⟨fun hs => ?_, fun hs => ?_⟩
  · have hsame : s.toSeeking = s := by rw [State.toSeeking, ← hs]
    rw [if_pos hs, hsame]
    rfl
  · rw [if_neg hs]
    rfl

end Sys2Proof.Machine
end

section
/-! PROOF. `FEED` keeps the registers' invariant (R36), and `FEEDN` is its `FEED`s (R152). -/

namespace Sys2Proof.Machine

/-- Outside `ReadingBody` the invariant asks only for the buffer's canonical form. -/
theorem State.Inv.of_not_body {s : State} (hwf : s.rxbuf.wf = true) (hs : s.rxState ≠ .readingBody) : s.Inv :=
  ⟨hwf, fun h => absurd h hs, fun h => absurd h hs, fun h => absurd h hs⟩

/-- A declared length that leaves a body opens `ReadingBody` with nothing buffered. -/
theorem State.enterBody_inv {s : State} (hwf : s.rxbuf.wf = true)
    (hlen : Config.lenBias < s.declaredLen.toNat) : s.enterBody.Inv :=
  ⟨hwf, fun _ => hlen, fun _ => Nat.zero_le _, fun _ => rfl⟩

/-- Buffering a byte before the checksum byte keeps the count's bound and `rx_sum`. -/
theorem State.Inv.storeBody (b : Byte) {s : State} (hinv : s.Inv) (hs : s.rxState = .readingBody)
    (hcount : s.rxCount.toNat < s.bodyLen) : (s.storeBody b).Inv := by
  have hcap := (feedByte_body b hs hcount.le).1
  have hnext := State.storeBody_rxCount_toNat b hcap
  refine ⟨Memory.wf_write b hinv.canonical hcap, fun _ => hinv.hasBody hs, fun _ => ?_, fun _ => ?_⟩
  · rw [hnext]
    exact hcount
  · rw [hnext, State.storeBody_rxbuf, Memory.prefixBytes_append _ _ _ hinv.canonical, byteSum_append,
      State.storeBody_rxSum, accAdd_toNat, hinv.sumBuffered hs, Nat.mod_add_mod, byteSum_cons, byteSum_nil,
      Nat.add_zero]

/-- From a state that meets the invariant every `FEED` completes, in a state that meets it. -/
theorem feedByte_completes (b : Byte) {s : State} (hinv : s.Inv) :
    ∃ r t, feedByte b s = .ok (r, t) ∧ t.Inv := by
  cases hs : s.rxState with
  | seeking =>
    refine ⟨_, _, feedByte_seeking b hs, ?_⟩
    split
    · exact .of_not_body hinv.canonical (by simp)
    · exact hinv
  | readingLength =>
    cases hseen : s.highByteSeen with
    | false => exact ⟨_, _, feedByte_lengthHigh b hs hseen, .of_not_body hinv.canonical (by simp [hs])⟩
    | true =>
      refine ⟨_, _, feedByte_lengthLow b hs hseen, ?_⟩
      split
      · exact .of_not_body hinv.canonical (by simp)
      · rename_i hbody
        exact State.enterBody_inv hinv.canonical (Nat.lt_of_not_le hbody)
  | readingBody =>
    obtain hcount | hcount := Nat.lt_or_eq_of_le (hinv.countBound hs)
    · exact ⟨_, _, feedByte_bodyByte b hs hcount, hinv.storeBody b hs hcount⟩
    · have hcap := (feedByte_body b hs hcount.le).1
      exact ⟨_, _, feedByte_checksumByte b hinv.canonical hs hcount,
        .of_not_body (Memory.wf_write b hinv.canonical hcap) (by simp)⟩

/-- The `FEED`s of a chunk one after another give the results of which `FEEDN` keeps the non-None ones,
and leave the state `FEEDN` leaves. -/
theorem execAll_feeds_give (S : List Byte) {s : State} (hinv : s.Inv) :
    ∃ rs t, feedBytes S s = .ok (rs.filter Response.isSome, t) ∧
      ∀ qs, execAll (S.map .feed) (s.give qs) = .next (t.give (qs ++ rs)) := by
  induction S generalizing s with
  | nil => exact ⟨[], s, rfl, fun qs => by rw [List.append_nil]; rfl⟩
  | cons b S ih =>
    obtain ⟨r, u, hfeed, hu⟩ := feedByte_completes b hinv
    obtain ⟨rs, t, hfeeds, hall⟩ := ih hu
    refine ⟨r :: rs, t, ?_, fun qs => ?_⟩
    · simp only [feedBytes, hfeed, hfeeds, List.filter_cons]
    · rw [List.map_cons, execAll, exec_feed_give hfeed qs]
      exact (hall (qs ++ [r])).trans (by rw [List.append_assoc, List.singleton_append])

/-- What `FEEDN` gives, appended to the results given before. -/
theorem feedAll_give (S : List Byte) (s : State) (qs : List Response) :
    feedAll S (s.give qs) =
      match feedBytes S s with
      | .error f => .fault f
      | .ok (rs, t) => .next (t.give (qs ++ rs)) := by
  rw [← State.withCaller_eq_give rfl rfl, feedAll, feedBytes_caller]
  cases hfeeds : feedBytes S s with
  | error f => rfl
  | ok p =>
    obtain ⟨hpend, hres⟩ := feedBytes_keeps_caller hfeeds
    simp only [Except.map, State.withCaller_eq_give hpend hres, State.give_give]

/-- A chunk cut in two is two chunks in turn, stops included. -/
theorem exec_feedn_append (S T : List Byte) (s : State) :
    exec (.feedn (S ++ T)) s = execAll [.feedn S, .feedn T] s := by
  simp only [execAll, exec, execFeedn]
  rw [feedAll, feedBytes_append]
  cases hS : feedBytes S s with
  | error f => simp only [feedAll, hS]
  | ok p =>
    have hfirst : feedAll S s = .next (p.2.give p.1) := by simp only [feedAll, hS]
    simp only [hfirst, feedAll_give]
    cases feedBytes T p.2 <;> rfl

/-- No row of Table R80 is a `FEEDN`: a pseudo-operation has no command code (R84). -/
theorem decodeCommand_ne_feedn (w : BitVec 11) (x y S : List Byte) : decodeCommand w x y ≠ .feedn S := by
  unfold decodeCommand
  split <;> simp

/-- Settles O38: by induction on the bytes, with the results given so far generalised. -/
theorem feednIsItsFeeds : Obligations.FeednIsItsFeeds := by
  refine ⟨fun w x y S h => decodeCommand_ne_feedn w x y S (Except.ok.inj h), fun S s hinv => ?_,
    exec_feedn_append⟩
  obtain ⟨rs, t, hfeeds, hall⟩ := execAll_feeds_give S hinv
  have hres : t.results = s.results := (feedBytes_keeps_caller hfeeds).2
  refine ⟨t.give rs, rs, by simpa using hall [], by rw [State.give_results, hres], ?_⟩
  exact ((feedAll_next_iff S s _).mpr ⟨_, t, hfeeds, rfl⟩).trans (by rw [State.give, State.give, hres])

end Sys2Proof.Machine
end

section
/-! PROOF. `RST`, the reserved command codes, and the completion of every operation (R180 to R184). -/

namespace Sys2Proof.Machine

/-! Reset (R180, R181). -/

/-- `RST` writes the reset registers and returns None in every state (R180). -/
theorem exec_rst_eq (s : State) : exec .rst s = .next (s.resetDecoder.give [.none]) := rfl

/-- Settles O9: at power-on the four registers hold what `resetDecoder` writes to them. -/
theorem newInstanceIsInTheResetState : Obligations.NewInstanceIsInTheResetState := by
  refine ⟨rfl, rfl, rfl, rfl, rfl, fun s t h => ?_⟩
  obtain rfl : s.resetDecoder.give [.none] = t := Host.Outcome.next.inj ((exec_rst_eq s).symm.trans h)
  exact ⟨rfl, rfl, rfl, rfl⟩

/-- Settles O52: code 0 is `RST` whatever `imm` is, and `RST` is `resetDecoder` with the result None. -/
theorem rstResetsTheDecoder : Obligations.RstResetsTheDecoder :=
  ⟨fun imm => congrArg Except.ok (decodeCommand_commandWord 0 imm [] []),
    fun s => ⟨_, exec_rst_eq s, rfl, rfl⟩⟩

/-! Reserved codes (R182). -/

theorem decodeCommand_of_op_six {w : BitVec 11} (h : opOf w = 6) (x y : List Byte) :
    decodeCommand w x y = .reserved6 := by
  simp [decodeCommand, h]

theorem decodeCommand_of_op_seven {w : BitVec 11} (h : opOf w = 7) (x y : List Byte) :
    decodeCommand w x y = .reserved7 := by
  simp [decodeCommand, h]

/-- Settles O53: decoding reads only `op` of such a word, and both arms refuse. -/
theorem reservedCodesAreRefused : Obligations.ReservedCodesAreRefused :=
  ⟨fun _ => ⟨rfl, rfl⟩, fun _ x y =>
    ⟨fun h => congrArg Except.ok (decodeCommand_of_op_six h x y),
      fun h => congrArg Except.ok (decodeCommand_of_op_seven h x y)⟩⟩

/-! Completion (R184). -/

/-- The rows of Table R80 are the only instructions that are their own expansion: a pseudo-operation and
a wire frame stand for others (R84, R85). -/
theorem expand_eq_self_cases {i : Instr} (h : expand i = [i]) :
    i = .rst ∨ (∃ A P, i = .enc A P) ∨ (∃ b, i = .feed b) ∨ i = .abort ∨ (∃ S, i = .csum S) ∨
      (∃ S c, i = .csvfy S c) ∨ i = .reserved6 ∨ i = .reserved7 := by
  cases i with
  | feedn S =>
    obtain ⟨b, -, hfeed⟩ := List.map_eq_singleton_iff.mp h
    cases hfeed
  | decode S => exact nomatch (List.cons.inj h).1
  | txreq A P => exact nomatch (List.cons.inj h).1
  | rxframe declaredLen tail =>
    obtain ⟨b, -, hfeed⟩ := List.map_eq_singleton_iff.mp h
    cases hfeed
  | _ => simp

theorem finishBody_ne_invalidArgument (s : State) : (finishBody s).1 ≠ .errInvalidArgument := by
  obtain ⟨-, h⟩ | ⟨-, -, h⟩ | ⟨-, -, h⟩ := finishBody_cases s <;> simp [h]

/-- No arm of `FEED` answers `InvalidArgument`: it checks no operand. -/
theorem feedByte_ne_invalidArgument {b : Byte} {s : State} {p : Response × State}
    (h : feedByte b s = .ok p) : p.1 ≠ .errInvalidArgument := by
  obtain ⟨-, -, rfl⟩ | ⟨-, -, rfl⟩ | ⟨-, -, rfl⟩ | ⟨-, -, -, rfl⟩ | ⟨-, -, -, rfl⟩ | ⟨-, -, rfl⟩ :=
    feedByte_cases h
  iterate 5 exact nofun
  · exact finishBody_ne_invalidArgument _

/-- Settles O54: of the instructions that are their own expansion, the six operations each have a law
that gives the one result; only `FEED`'s needs the invariant. -/
theorem everyOperationCompletes : Obligations.EveryOperationCompletes := by
  intro i s hinv hcore h6 h7
  obtain rfl | ⟨A, P, rfl⟩ | ⟨b, rfl⟩ | rfl | ⟨S, rfl⟩ | ⟨S, c, rfl⟩ | rfl | rfl := expand_eq_self_cases hcore
  · exact ⟨_, _, exec_rst_eq s, rfl, nofun⟩
  · obtain ⟨r, henc, -⟩ := encIsPure A P
    exact ⟨r, _, henc s, rfl, fun _ => ⟨A, P, rfl⟩⟩
  · obtain ⟨r, t, hfeed, -⟩ := feedByte_completes b hinv
    have hres : t.results = s.results := (feedByte_keeps_caller hfeed).2
    exact ⟨r, _, exec_feed_of_ok hfeed, congrArg (· ++ [r]) hres,
      fun hr => absurd hr (feedByte_ne_invalidArgument hfeed)⟩
  · refine ⟨_, _, exec_abort_eq s, rfl, ?_⟩
    split <;> exact nofun
  · exact ⟨_, _, exec_csum_eq S s, rfl, nofun⟩
  · exact ⟨_, _, exec_csvfy_eq S c s, rfl, nofun⟩
  · exact absurd rfl h6
  · exact absurd rfl h7

end Sys2Proof.Machine
end

section
/-! PROOF. The registers realise the abstract decoder (R36): the simulation, step by step, and what follows
from it for invariants, faults and what a caller can see. -/

namespace Sys2Proof.Machine

/-! The abstract state, by the value of `rx_state`. -/

theorem State.abs_of_seeking {s : State} (hs : s.rxState = .seeking) : s.abs = .seeking := by
  simp [State.abs, hs]

theorem State.abs_of_readingLength {s : State} (hs : s.rxState = .readingLength) :
    s.abs = .readingLength (if s.highByteSeen then some s.lenHi else none) := by
  simp [State.abs, hs]

theorem State.abs_of_readingBody {s : State} (hs : s.rxState = .readingBody) :
    s.abs = .readingBody s.declaredLen (s.rxbuf.prefixBytes s.rxCount.toNat) := by
  simp [State.abs, hs]

theorem State.abs_eq_seeking_iff (s : State) : s.abs = .seeking ↔ s.rxState = .seeking := by
  unfold State.abs
  split <;> simp [*]

/-! The invariant and the updates of the state. -/

theorem State.Inv.give {s : State} (hinv : s.Inv) (rs : List Response) : (s.give rs).Inv :=
  ⟨hinv.canonical, hinv.hasBody, hinv.countBound, hinv.sumBuffered⟩

theorem State.Inv.withPending {s : State} (hinv : s.Inv) (ps : List Launch) : State.Inv { s with pending := ps } :=
  ⟨hinv.canonical, hinv.hasBody, hinv.countBound, hinv.sumBuffered⟩

theorem State.Inv.of_seeking {s : State} (hwf : s.rxbuf.wf = true) (hs : s.rxState = .seeking) : s.Inv :=
  .of_not_body hwf (by simp [hs])

theorem State.toSeeking_inv {s : State} (hwf : s.rxbuf.wf = true) : s.toSeeking.Inv := .of_seeking hwf rfl

theorem State.resetDecoder_inv {s : State} (hwf : s.rxbuf.wf = true) : s.resetDecoder.Inv := .of_seeking hwf rfl

/-! `FEED` and `FEEDN`. -/

/-- Buffering a body byte appends it to the abstract buffer. -/
theorem State.storeBody_abs (b : Byte) {s : State} (hwf : s.rxbuf.wf = true) (hs : s.rxState = .readingBody)
    (hcap : s.rxCount.toNat < Config.rxBufCap) :
    (s.storeBody b).abs = .readingBody s.declaredLen (s.rxbuf.prefixBytes s.rxCount.toNat ++ [b]) := by
  rw [State.abs_of_readingBody (by simpa using hs), State.storeBody_rxCount_toNat b hcap, State.storeBody_rxbuf,
    Memory.prefixBytes_append _ _ _ hwf, State.storeBody_declaredLen]

/-- Each arm of `FEED` returns what the abstract `FEED` returns, and its next state stands for the abstract
next state (R141 to R146). -/
theorem feedByte_abs {b : Byte} {s t : State} {r : Response} (hinv : s.Inv) (h : feedByte b s = .ok (r, t)) :
    s.abs.feed b = (r, t.abs) := by
  cases hs : s.rxState with
  | seeking =>
    obtain ⟨rfl, rfl⟩ := Prod.mk.inj (Except.ok.inj ((feedByte_seeking b hs).symm.trans h))
    rw [State.abs_of_seeking hs, DecoderState.feed]
    split
    · rfl
    · rw [State.abs_of_seeking hs]
  | readingLength =>
    rw [State.abs_of_readingLength hs]
    cases hseen : s.highByteSeen with
    | false =>
      obtain ⟨rfl, rfl⟩ := Prod.mk.inj (Except.ok.inj ((feedByte_lengthHigh b hs hseen).symm.trans h))
      simp [DecoderState.feed, State.abs_of_readingLength, hs]
    | true =>
      obtain ⟨rfl, rfl⟩ := Prod.mk.inj (Except.ok.inj ((feedByte_lengthLow b hs hseen).symm.trans h))
      simp only [if_true, DecoderState.feed]
      split <;> rfl
  | readingBody =>
    rw [State.abs_of_readingBody hs]
    obtain hcount | hcount := Nat.lt_or_eq_of_le (hinv.countBound hs)
    · obtain ⟨rfl, rfl⟩ := Prod.mk.inj (Except.ok.inj ((feedByte_bodyByte b hs hcount).symm.trans h))
      rw [DecoderState.feed_body _ _ _ (by simpa using hcount),
        State.storeBody_abs b hinv.canonical hs (feedByte_body b hs hcount.le).1]
    · obtain ⟨rfl, rfl⟩ := Prod.mk.inj (Except.ok.inj
        ((feedByte_checksumByte b hinv.canonical hs hcount).symm.trans h))
      rw [DecoderState.feed_checksum _ _ _ (by simpa using hcount), hcount]
      rfl

/-- A chunk completes with the abstract results, in a state that meets the invariant and stands for the
abstract next state. -/
theorem feedBytes_realises (S : List Byte) {s : State} (hinv : s.Inv) :
    ∃ t, feedBytes S s = .ok ((s.abs.feedn S).1, t) ∧ t.Inv ∧ t.abs = (s.abs.feedn S).2 := by
  induction S generalizing s with
  | nil => exact ⟨s, rfl, hinv, rfl⟩
  | cons b S ih =>
    obtain ⟨r, u, hfeed, hu⟩ := feedByte_completes b hinv
    obtain ⟨t, hfeeds, ht, habs⟩ := ih hu
    refine ⟨t, ?_, ht, ?_⟩
    · simp only [feedBytes, hfeed, hfeeds, DecoderState.feedn, feedByte_abs hinv hfeed]
    · simp only [DecoderState.feedn, feedByte_abs hinv hfeed, habs]

/-! Every instruction. -/

/-- `t` is a state that an operation of the registers `s` with results `rs` and abstract next state `d` may
leave: it meets the invariant, stands for `d`, and has its results after all earlier ones. -/
structure State.Realises (s : State) (rs : List Response) (d : DecoderState) (t : State) : Prop where
  inv : t.Inv
  abs : t.abs = d
  results : t.results = s.results ++ rs
  pending : t.pending = s.pending

theorem feedAll_realises (S : List Byte) {s : State} (hinv : s.Inv) :
    ∃ t, feedAll S s = .next t ∧ s.Realises (s.abs.feedn S).1 (s.abs.feedn S).2 t := by
  obtain ⟨t, hfeeds, ht, habs⟩ := feedBytes_realises S hinv
  obtain ⟨hpend, hres⟩ := feedBytes_keeps_caller hfeeds
  exact ⟨_, (feedAll_next_iff S s _).mpr ⟨_, t, hfeeds, rfl⟩, ht.give _, habs, congrArg (· ++ _) hres, hpend⟩

/-- From `Seeking` a chunk needs no more of the registers than a canonical buffer. -/
theorem feedAll_realises_of_seeking (S : List Byte) {s : State} (hwf : s.rxbuf.wf = true)
    (hs : s.rxState = .seeking) :
    ∃ t, feedAll S s = .next t ∧ s.Realises (DecoderState.seeking.feedn S).1 (DecoderState.seeking.feedn S).2 t :=
  State.abs_of_seeking hs ▸ feedAll_realises S (.of_seeking hwf hs)

/-- `DECODE` takes its bytes from `Seeking`, whatever the decoder held (R155). -/
theorem exec_decode_realises (S : List Byte) {s : State} (hwf : s.rxbuf.wf = true) :
    ∃ t, exec (.decode S) s = .next t ∧
      s.Realises (DecoderState.seeking.feedn S).1 (DecoderState.seeking.feedn S).2 t := by
  obtain ⟨t, hfeeds, ht⟩ := feedAll_realises_of_seeking S (s := s.resetDecoder) hwf rfl
  exact ⟨t, hfeeds, ht.inv, ht.abs, ht.results, ht.pending⟩

/-- `ABORT` on the registers is `ABORT` on the abstract state (R153). -/
theorem State.abs_abort (s : State) :
    s.abs.abort = (if s.rxState = .seeking then .none else .errTruncated, .seeking) := by
  unfold State.abs
  split <;> simp [DecoderState.abort, *]

/-- The simulation: an instruction with an abstract meaning completes with that meaning. -/
theorem exec_realises {i : Instr} {s : State} {p : List Response × DecoderState} (hinv : s.Inv)
    (h : absExec i s.abs = some p) : ∃ t, exec i s = .next t ∧ s.Realises p.1 p.2 t := by
  have hstateless (rs : List Response) : s.Realises rs s.abs (s.give rs) := ⟨hinv.give rs, rfl, rfl, rfl⟩
  cases i with
  | rst =>
    cases h
    exact ⟨_, exec_rst_eq s, (State.resetDecoder_inv hinv.canonical).give _, rfl, rfl, rfl⟩
  | enc A P =>
    cases h
    exact ⟨_, congrArg complete (encodeFrame_eq A P s), hstateless _⟩
  | feed b =>
    obtain ⟨r, t, hfeed, ht⟩ := feedByte_completes b hinv
    obtain ⟨hpend, hres⟩ := feedByte_keeps_caller hfeed
    simp only [absExec, feedByte_abs hinv hfeed] at h
    cases h
    exact ⟨_, exec_feed_of_ok hfeed, ht.give _, rfl, congrArg (· ++ [r]) hres, hpend⟩
  | abort =>
    simp only [absExec, State.abs_abort] at h
    cases h
    exact ⟨_, exec_abort_eq s, (State.toSeeking_inv hinv.canonical).give _, rfl, rfl, rfl⟩
  | csum S =>
    cases h
    exact ⟨_, exec_csum_eq S s, hstateless _⟩
  | csvfy S c =>
    cases h
    exact ⟨_, exec_csvfy_eq S c s, hstateless _⟩
  | reserved6 => cases h
  | reserved7 => cases h
  | feedn S =>
    cases h
    exact feedAll_realises S hinv
  | decode S =>
    cases h
    exact exec_decode_realises S hinv.canonical
  | txreq A P =>
    cases h
    exact ⟨_, congrArg complete (encodeFrame_eq A P s), hstateless _⟩
  | rxframe declaredLen tail =>
    cases h
    exact feedAll_realises _ hinv

/-- Only the reserved codes have no abstract meaning, and they are refused. -/
theorem exec_refused_of_absExec_none {i : Instr} {d : DecoderState} (h : absExec i d = none) :
    ∃ op, ∀ s, exec i s = .refused (.reservedCommand op) := by
  cases i with
  | reserved6 => exact ⟨6, fun _ => rfl⟩
  | reserved7 => exact ⟨7, fun _ => rfl⟩
  | _ => cases h

/-- What an instruction does from a state that meets the invariant: the abstract meaning, or a refusal that
is the same in every state. -/
theorem exec_cases (i : Instr) {s : State} (hinv : s.Inv) :
    (∃ rs d t, absExec i s.abs = some (rs, d) ∧ exec i s = .next t ∧ s.Realises rs d t) ∨
    (∃ w, ∀ s', exec i s' = .refused w) := by
  cases h : absExec i s.abs with
  | some p =>
    obtain ⟨t, hexec, ht⟩ := exec_realises hinv h
    exact .inl ⟨p.1, p.2, t, rfl, hexec, ht⟩
  | none =>
    obtain ⟨op, hop⟩ := exec_refused_of_absExec_none h
    exact .inr ⟨_, hop⟩

/-- Settles O13: the simulation, and the refusal of the reserved codes. -/
theorem registersRealiseTheAbstractDecoder : Obligations.RegistersRealiseTheAbstractDecoder := by
  intro i s hinv
  split
  · rename_i rs d h
    obtain ⟨t, hexec, ht⟩ := exec_realises hinv h
    exact ⟨t, hexec, ht.abs, ht.results, ht.pending⟩
  · rename_i h
    obtain ⟨op, hop⟩ := exec_refused_of_absExec_none h
    exact ⟨op, hop s⟩

/-! Sequences, launches and steps. -/

/-- `f` completes or is refused, and completes only in a state that meets the invariant. -/
def SafeOutcome : Host.Outcome State Fault Refusal → Prop
  | .next t => t.Inv
  | .fault _ => False
  | .refused _ => True

theorem exec_safe (i : Instr) {s : State} (hinv : s.Inv) : SafeOutcome (exec i s) := by
  obtain ⟨_, _, t, -, hexec, ht⟩ | ⟨w, hw⟩ := exec_cases i hinv
  · rw [hexec]
    exact ht.inv
  · rw [hw]
    exact trivial

theorem execAll_safe (is : List Instr) {s : State} (hinv : s.Inv) : SafeOutcome (execAll is s) := by
  induction is generalizing s with
  | nil => exact hinv
  | cons i is ih =>
    have hi := exec_safe i hinv
    rw [execAll]
    cases hexec : exec i s with
    | next t =>
      rw [hexec] at hi
      exact ih hi
    | fault f =>
      rw [hexec] at hi
      exact hi
    | refused w => exact trivial

theorem runRequest_safe (r : Request) {s : State} (hinv : s.Inv) : SafeOutcome (runRequest r s) := by
  obtain ⟨e, -, hrun⟩ | ⟨i, -, hrun⟩ := runRequest_cases r s <;> rw [hrun]
  · exact trivial
  · exact exec_safe i hinv

theorem runOverlap_safe (rs : List Request) {s : State} (hinv : s.Inv) : SafeOutcome (runOverlap rs s) := by
  cases hd : decodeAll rs with
  | error e =>
    simp only [runOverlap, hd]
    exact trivial
  | ok is =>
    rw [runOverlap_decoded ((decodeAll_eq_ok_iff rs is).mp hd)]
    split
    · exact execAll_safe is hinv
    · exact trivial

/-- A step from a state that meets the invariant never faults, and keeps the invariant. -/
theorem step_safe {s : State} (hinv : s.Inv) : SafeOutcome (step s) := by
  cases hp : s.pending with
  | nil =>
    rw [step, runNext_idle hp]
    exact hinv
  | cons l rest =>
    rw [step, runNext_cons hp]
    cases l with
    | single r => exact runRequest_safe r (hinv.withPending rest)
    | overlap rs => exact runOverlap_safe rs (hinv.withPending rest)

/-- Settles O11: a step's next state meets the invariant, whatever the launch. -/
theorem stepKeepsTheInvariant : Obligations.StepKeepsTheInvariant := by
  intro s t hinv hstep
  have hsafe := step_safe hinv
  rwa [hstep] at hsafe

/-- Settles O12: a fault is no safe outcome. -/
theorem noStepFaults : Obligations.NoStepFaults := by
  intro s f hinv hstep
  have hsafe := step_safe hinv
  rwa [hstep] at hsafe

/-! What a caller can see. -/

/-- Two states with the same view that realise the same results and abstract state have the same view. -/
theorem State.sameView.of_realises {s s' t t' : State} {rs : List Response} {d : DecoderState}
    (hview : s.sameView s') (ht : s.Realises rs d t) (ht' : s'.Realises rs d t') : t.sameView t' := by
  obtain ⟨-, hpend, hres⟩ := hview
  exact ⟨by rw [ht.abs, ht'.abs], by rw [ht.pending, ht'.pending, hpend], by rw [ht.results, ht'.results, hres]⟩

/-- Settles O14: by induction over the operations; each one sees of the state only what the two share. -/
theorem unspecifiedRegistersCannotBeSeen : Obligations.UnspecifiedRegistersCannotBeSeen := by
  intro is
  induction is with
  | nil => exact fun s s' _ _ hview => hview
  | cons i is ih =>
    intro s s' hinv hinv' hview
    simp only [execAll]
    obtain ⟨rs, d, t, habs, hexec, ht⟩ | ⟨w, hw⟩ := exec_cases i hinv
    · obtain ⟨t', hexec', ht'⟩ := exec_realises hinv' (hview.1 ▸ habs)
      rw [hexec, hexec']
      exact ih t t' ht.inv ht'.inv (hview.of_realises ht ht')
    · rw [hw, hw]

end Sys2Proof.Machine
end

section
/-! PROOF. Requests and instructions (Table R80, R84) and the two wire frames' bytes (Tables R70, R75): what
is read back is what was written, and nothing else is read. -/

namespace Sys2Proof.Machine

/-! Header patterns. -/

/-- A byte of the pattern under the full mask stands for itself. -/
theorem matchesPattern_exact (m : Byte) (ps : List (Byte × Byte)) (F : List Byte) :
    matchesPattern ((m, 0xFF) :: ps) F = true ↔ ∃ R, F = m :: R ∧ matchesPattern ps R = true := by
  have hmask (b : Byte) : b &&& 255#8 = b := BitVec.and_allOnes
  cases F with
  | nil => simp [matchesPattern]
  | cons b bs => simp [matchesPattern, hmask, and_assoc]

/-- A byte of the pattern under the empty mask stands for any byte. -/
theorem matchesPattern_any (ps : List (Byte × Byte)) (F : List Byte) :
    matchesPattern ((0x00, 0x00) :: ps) F = true ↔ ∃ b R, F = b :: R ∧ matchesPattern ps R = true := by
  cases F <;> simp [matchesPattern]

/-- A run of such bytes stands for any bytes of that number. -/
theorem matchesPattern_replicate_any (n : Nat) (ps : List (Byte × Byte)) (F : List Byte) :
    matchesPattern (List.replicate n (0x00, 0x00) ++ ps) F = true ↔
      ∃ A R, A.length = n ∧ F = A ++ R ∧ matchesPattern ps R = true := by
  induction n generalizing F with
  | zero => simp
  | succ n ih =>
    rw [List.replicate_succ, List.cons_append, matchesPattern_any]
    constructor
    · rintro ⟨b, F, rfl, hF⟩
      obtain ⟨A, R, hA, rfl, h⟩ := (ih F).mp hF
      exact ⟨b :: A, R, congrArg (· + 1) hA, rfl, h⟩
    · rintro ⟨A, R, hA, rfl, h⟩
      obtain ⟨b, A, rfl⟩ := List.exists_cons_of_length_eq_add_one hA
      exact ⟨b, A ++ R, rfl, (ih _).mpr ⟨A, R, by simpa using hA, rfl, h⟩⟩

/-- Bytes with the fixed bytes of Table R70's header, any length field and any rest. -/
def outboundBytes (hi lo : Byte) (A R : List Byte) : List Byte :=
  0x7E :: hi :: lo :: 0x10 :: 0x01 :: (A ++ (txFixed ++ R))

theorem outboundBytes_length (hi lo : Byte) (A R : List Byte) :
    (outboundBytes hi lo A R).length = A.length + 9 + R.length := by
  simp [outboundBytes, txFixed_length]
  omega

/-- The `TXREQ` row's pattern matches exactly the bytes with Table R70's header (R86). -/
theorem matchesPattern_txreqPattern_iff (F : List Byte) :
    matchesPattern txreqPattern F = true ↔ ∃ hi lo A R, A.length = 8 ∧ F = outboundBytes hi lo A R := by
  simp only [txreqPattern, List.cons_append, List.nil_append, matchesPattern_exact, matchesPattern_any,
    matchesPattern_replicate_any, matchesPattern.eq_1, and_true]
  constructor
  · rintro ⟨_, rfl, hi, _, rfl, lo, _, rfl, _, rfl, _, rfl, A, _, hA, rfl, _, rfl, _, rfl, _, rfl, R, rfl⟩
    exact ⟨hi, lo, A, R, hA, rfl⟩
  · rintro ⟨hi, lo, A, R, hA, rfl⟩
    exact ⟨_, rfl, hi, _, rfl, lo, _, rfl, _, rfl, _, rfl, A, _, hA, rfl, _, rfl, _, rfl, _, rfl, R, rfl⟩

/-! The outbound frame. -/

/-- The outbound frame is its header, its payload and its checksum byte. -/
theorem txFrame_eq_outboundBytes (A P : List Byte) :
    txFrame A P = outboundBytes (lenHiByte (frameLen P)) (lenLoByte (frameLen P)) A (P ++ [csum (txBody A P)]) := by
  simp [txFrame, txBody, outboundBytes, txFixed, Config.delim, Config.ftTxreq, Config.frameId, Config.netAddr,
    Config.radius, Config.options]

/-- Nothing after the header: the frame lacks its checksum byte. -/
theorem decodeOutbound_header_only (hi lo : Byte) {A : List Byte} (hA : A.length = 8) :
    decodeOutbound (outboundBytes hi lo A []) = .error .outboundLength := by
  have hpattern := (matchesPattern_txreqPattern_iff _).mpr ⟨hi, lo, A, [], hA, rfl⟩
  have hlen : (outboundBytes hi lo A []).length ≤ Config.hdrLen := by
    rw [outboundBytes_length, hA]
    exact Nat.le_refl 17
  simp [decodeOutbound, hpattern, hlen]

/-- After the header pattern, the length field and the checksum byte decide (Table R70). -/
theorem decodeOutbound_outboundBytes (hi lo c : Byte) {A : List Byte} (P : List Byte) (hA : A.length = 8) :
    decodeOutbound (outboundBytes hi lo A (P ++ [c])) =
      if Config.maxPayload < P.length ∨ hi ≠ lenHiByte (frameLen P) ∨ lo ≠ lenLoByte (frameLen P) then
        .error .outboundLength
      else if c ≠ csum (txBody A P) then .error .outboundChecksum
      else .ok (.txreq A P) := by
  have hpattern := (matchesPattern_txreqPattern_iff _).mpr ⟨hi, lo, A, P ++ [c], hA, rfl⟩
  have hlen : ¬ (outboundBytes hi lo A (P ++ [c])).length ≤ Config.hdrLen := by
    simp [outboundBytes_length, hA, Config.hdrLen]
  have hdrop : (outboundBytes hi lo A (P ++ [c])).drop 5 = A ++ (txFixed ++ (P ++ [c])) := rfl
  have haddr : ((outboundBytes hi lo A (P ++ [c])).drop 5).take Config.addrLen = A := by
    rw [hdrop]
    exact List.take_left' hA
  have hrest : (outboundBytes hi lo A (P ++ [c])).drop Config.hdrLen = P ++ [c] := by
    rw [show Config.hdrLen = 5 + (8 + 4) from rfl, ← List.drop_drop, hdrop, ← List.drop_drop,
      List.drop_left' hA, List.drop_left' txFixed_length]
  have hlast : (outboundBytes hi lo A (P ++ [c])).getLast? = some c := by
    simp [outboundBytes, List.getLast?_cons, List.getLast?_append]
  have hhi : (outboundBytes hi lo A (P ++ [c]))[1]? = some hi := rfl
  have hlo : (outboundBytes hi lo A (P ++ [c]))[2]? = some lo := rfl
  simp [decodeOutbound, hpattern, hlen, haddr, hrest, hlast, hhi, hlo]

/-- An outbound frame is read exactly from its own bytes. -/
theorem decodeOutbound_eq_ok_iff (F : List Byte) (i : Instr) :
    decodeOutbound F = .ok i ↔
      ∃ A P, i = .txreq A P ∧ F = txFrame A P ∧ A.length = Config.addrLen ∧ P.length ≤ Config.maxPayload := by
  constructor
  · intro h
    have hpattern : matchesPattern txreqPattern F = true := by
      by_contra hno
      simp [decodeOutbound, hno] at h
    obtain ⟨hi, lo, A, R, hA, rfl⟩ := (matchesPattern_txreqPattern_iff F).mp hpattern
    obtain rfl | ⟨P, c, rfl⟩ := R.eq_nil_or_concat'
    · rw [decodeOutbound_header_only hi lo hA] at h
      cases h
    · rw [decodeOutbound_outboundBytes hi lo c P hA] at h
      split at h
      · cases h
      · rename_i hlength
        split at h
        · cases h
        · rename_i hsum
          simp only [not_or, not_lt, ne_eq, not_not] at hlength hsum
          obtain ⟨hP, rfl, rfl⟩ := hlength
          exact ⟨A, P, (Except.ok.inj h).symm, by rw [txFrame_eq_outboundBytes, hsum], hA, hP⟩
  · rintro ⟨A, P, rfl, rfl, hA, hP⟩
    rw [txFrame_eq_outboundBytes, decodeOutbound_outboundBytes _ _ _ P hA]
    simp [hP]

/-! The inbound frame. -/

/-- An inbound frame is read exactly from its own bytes. -/
theorem decodeInbound_eq_ok_iff (F : List Byte) (i : Instr) :
    decodeInbound F = .ok i ↔
      ∃ declaredLen tail, i = .rxframe declaredLen tail ∧ F = rxFrame declaredLen tail ∧
        tail.length = tailLen declaredLen := by
  constructor
  · intro h
    unfold decodeInbound at h
    split at h
    · cases h
    · split at h
      · cases h
      · rename_i hdelim
        split at h
        · rename_i hi lo tail
          split at h
          · rename_i hlen
            exact ⟨assembleLen hi lo, tail, (Except.ok.inj h).symm, by
              rw [rxFrame, lenHiByte_assembleLen, lenLoByte_assembleLen, not_not.mp hdelim]
              rfl, hlen⟩
          · cases h
        · cases h
  · rintro ⟨declaredLen, tail, rfl, rfl, hlen⟩
    simp [decodeInbound, rxFrame, assembleLen_bytes_bitvec, hlen]

/-! Requests. -/

/-- Settles O1: each of these words has its `op` in the top three bits and its `imm` below. -/
theorem specCommandWordsDecode : Obligations.SpecCommandWordsDecode :=
  fun _ _ _ => ⟨rfl, rfl, rfl, rfl, rfl, rfl, rfl, rfl, rfl⟩

/-- A command word is put together from its two fields. -/
theorem commandWord_opOf_immOf (w : BitVec 11) : commandWord (opOf w) (immOf w) = w := by
  ext i hi
  by_cases h : i < 8
  · simp [commandWord, opOf, immOf, hi, h]
  · have hop : i - 8 < 3 := by omega
    have hpos : 8 + (i - 8) = i := by omega
    simp [commandWord, opOf, immOf, hi, h, hop, hpos, BitVec.getLsbD_eq_getElem]

/-- Settles O2: a word is its two fields, and decoding an assembled word looks at its `op` row alone. -/
theorem opSelectsAndImmIsIgnored : Obligations.OpSelectsAndImmIsIgnored := by
  refine ⟨fun w => (commandWord_opOf_immOf w).symm, fun imm x y => ?_⟩
  have hrow (op : BitVec 3) := congrArg (Except.ok (ε := DecodeError)) (decodeCommand_commandWord op imm x y)
  exact ⟨hrow 0, hrow 1, hrow 2, hrow 3, hrow 4, hrow 5, hrow 6, hrow 7⟩

/-- Settles O3: a command word by its `op` row, a wire frame because it is read from its own bytes. -/
theorem decodeEncodeRoundTrip : Obligations.DecodeEncodeRoundTrip := by
  intro i hwf
  have hrow (op : BitVec 3) (imm : Byte) (x y : List Byte) :=
    congrArg (Except.ok (ε := DecodeError)) (decodeCommand_commandWord op imm x y)
  cases i with
  | rst => exact hrow 0 0 [] []
  | enc A P => exact hrow 1 0 A P
  | feed b => exact hrow 2 b [] []
  | abort => exact hrow 3 0 [] []
  | csum S => exact hrow 4 0 S []
  | csvfy S c => exact hrow 5 c S []
  | reserved6 => exact hrow 6 0 [] []
  | reserved7 => exact hrow 7 0 [] []
  | feedn S => rfl
  | decode S => rfl
  | txreq A P =>
    simp only [Instr.wellFormed, Bool.and_eq_true, decide_eq_true_eq] at hwf
    exact (decodeOutbound_eq_ok_iff _ _).mpr ⟨A, P, rfl, rfl, hwf⟩
  | rxframe declaredLen tail =>
    exact (decodeInbound_eq_ok_iff _ _).mpr ⟨declaredLen, tail, rfl, rfl, by simpa [Instr.wellFormed] using hwf⟩

/-- A command word is well formed whatever it is: only the wire frames constrain their fields. -/
theorem decodeCommand_wellFormed (w : BitVec 11) (x y : List Byte) : (decodeCommand w x y).wellFormed = true := by
  unfold decodeCommand
  split <;> rfl

/-- Settles O4: bytes read as a wire frame are that frame's own bytes, with the sizes it asks for. -/
theorem decodedFramesReencode : Obligations.DecodedFramesReencode := by
  refine ⟨fun r i h => ?_, fun F i h => ?_, fun F i h => ?_⟩
  · cases r with
    | command w x y => exact Except.ok.inj h ▸ decodeCommand_wellFormed w x y
    | chunk S => exact Except.ok.inj h ▸ rfl
    | fresh S => exact Except.ok.inj h ▸ rfl
    | outbound F =>
      obtain ⟨A, P, rfl, -, hA, hP⟩ := (decodeOutbound_eq_ok_iff F i).mp h
      simp [Instr.wellFormed, hA, hP]
    | inbound F =>
      obtain ⟨declaredLen, tail, rfl, -, hlen⟩ := (decodeInbound_eq_ok_iff F i).mp h
      simp [Instr.wellFormed, hlen]
  · obtain ⟨A, P, rfl, rfl, -⟩ := (decodeOutbound_eq_ok_iff F i).mp h
    rfl
  · obtain ⟨declaredLen, tail, rfl, rfl, -⟩ := (decodeInbound_eq_ok_iff F i).mp h
    rfl

end Sys2Proof.Machine
end

section
/-! PROOF. What the frame `ENC` returns is good for (40_encoder.md section 1), and what the checksum detects
(41_checksum.md sections 1, 3 and 4). -/

namespace Sys2Proof.Machine

/-! Sums of bytes. -/

/-- Bytes followed by their checksum byte sum to 0xFF (R123). -/
theorem byteSum_append_csum (S : List Byte) : byteSum (S ++ [csum S]) % 256 = 255 := by
  rw [byteSum_append, byteSum_cons, byteSum_nil, csum_toNat]
  omega

/-- Replacing one byte moves the sum by the difference of the two bytes. -/
theorem byteSum_set (S : List Byte) (y : Byte) {n : Nat} (hn : n < S.length) :
    byteSum (S.set n y) + S[n].toNat = byteSum S + y.toNat := by
  induction S generalizing n with
  | nil => cases hn
  | cons b S ih =>
    cases n with
    | zero => simp only [List.set_cons_zero, List.getElem_cons_zero, byteSum_cons]; omega
    | succ n =>
      have := ih (Nat.lt_of_succ_lt_succ hn)
      simp only [List.set_cons_succ, List.getElem_cons_succ, byteSum_cons]
      omega

/-- A byte replaced by another changes the sum modulo 256 (R129): the difference is below 256. -/
theorem byteSum_set_mod_ne {S : List Byte} {y : Byte} {n : Nat} (hn : n < S.length) (hy : S[n]? ≠ some y) :
    byteSum (S.set n y) % 256 ≠ byteSum S % 256 := by
  have hset := byteSum_set S y hn
  have hne : S[n].toNat ≠ y.toNat := by
    rw [List.getElem?_eq_getElem hn] at hy
    exact fun h => hy (congrArg some (BitVec.eq_of_toNat_eq h))
  have := S[n].isLt
  have := y.isLt
  omega

/-! The frame `ENC` returns. -/

/-- `ENC` returns bytes exactly for legal operands, and they are the frame (R100 to R102). -/
theorem exec_enc_eq_bytes_iff (A P F : List Byte) (s : State) :
    exec (.enc A P) s = .next { s with results := s.results ++ [.bytes F] } ↔
      A.length = 8 ∧ P.length ≤ 65520 ∧ F = txFrame A P := by
  constructor
  · intro h
    have hgive (r : Response) (hr : exec (.enc A P) s = .next (s.give [r])) : r = .bytes F := by
      simpa using (s.give_inj [r] [.bytes F]).mp (Host.Outcome.next.inj (hr.symm.trans h))
    cases hbad : encOperandsBad A P with
    | true => cases hgive _ (exec_enc_of_illegal s hbad)
    | false =>
      obtain ⟨hA, hP⟩ := (encOperandsBad_eq_false_iff A P).mp hbad
      cases hgive _ (exec_enc_of_legal A P s hA hP)
      exact ⟨hA, hP, rfl⟩
  · rintro ⟨hA, hP, rfl⟩
    exact exec_enc_of_legal A P s hA hP

/-- The outbound row is performed as the operation that produces it (R85). -/
theorem exec_txreq_eq (A P : List Byte) (s : State) : exec (.txreq A P) s = exec (.enc A P) s := rfl

/-- Settles O19: the length field counts `LEN_BIAS` and the body, the size also three bytes before it. -/
theorem encodedFrameSumsToFF : Obligations.EncodedFrameSumsToFF := by
  intro A P F s h
  obtain ⟨hA, hP, rfl⟩ := (exec_enc_eq_bytes_iff A P F s).mp h
  refine ⟨?_, byteSum_append_csum (txBody A P)⟩
  have hhi : ((txFrame A P).getD 1 0).toNat = (15 + P.length) / 256 % 256 := by
    rw [← frameLen_eq, ← lenHiByte_toNat]
    rfl
  have hlo : ((txFrame A P).getD 2 0).toNat = (15 + P.length) % 256 := by
    rw [← frameLen_eq, ← lenLoByte_toNat]
    rfl
  rw [hhi, hlo, txFrame_length, hA]
  omega

/-- Settles O20: a frame's bytes are read back as its operands, so they determine them. -/
theorem encIsInjective : Obligations.EncIsInjective := by
  intro A P A' P' F s s' h h'
  obtain ⟨hA, hP, rfl⟩ := (exec_enc_eq_bytes_iff A P F s).mp h
  obtain ⟨hA', hP', hF⟩ := (exec_enc_eq_bytes_iff A' P' _ s').mp h'
  have hread := (decodeOutbound_eq_ok_iff _ _).mpr ⟨A, P, rfl, rfl, hA, hP⟩
  have hread' := (decodeOutbound_eq_ok_iff _ _).mpr ⟨A', P', rfl, hF, hA', hP'⟩
  exact Instr.txreq.inj (Except.ok.inj (hread.symm.trans hread'))

/-- The streaming encoder emits the bytes it is given, then `final` of the accumulator they leave (R104). -/
theorem streamEmit_eq (acc : Byte) (S : List Byte) :
    streamEmit acc S = S ++ [accFinal (S.foldl accAdd acc)] := by
  induction S generalizing acc with
  | nil => rfl
  | cons b S ih => rw [streamEmit, ih, List.foldl_cons, List.cons_append]

/-- Settles O21: over the body, the streaming encoder's last byte is the checksum byte. -/
theorem streamingEncoderAgrees : Obligations.StreamingEncoderAgrees := by
  intro A P s hA hP
  refine (exec_enc_eq_bytes_iff A P _ s).mpr ⟨hA, hP, ?_⟩
  have hstream : streamEmit accClear (txBody A P) = txBody A P ++ [csum (txBody A P)] := by
    rw [streamEmit_eq, ← accFinal_accOf]
    rfl
  have hbody : [0x10, 0x01] ++ A ++ [0xFF, 0xFE, 0x00, 0x00] ++ P = txBody A P := by
    simp [txBody, Config.ftTxreq, Config.frameId, Config.netAddr, Config.radius, Config.options]
  rw [hbody, hstream, ← frameLen_eq, txFrame, List.append_assoc]
  rfl

/-- Settles O22: the frame is read back, so it has the row's header. -/
theorem txreqIsTheFrameEncProduces : Obligations.TxreqIsTheFrameEncProduces := by
  intro A P s hwf
  simp only [Instr.wellFormed, Bool.and_eq_true, decide_eq_true_eq] at hwf
  obtain ⟨hA, hP⟩ := hwf
  have henc := (exec_enc_eq_bytes_iff A P _ s).mpr ⟨hA, hP, rfl⟩
  exact ⟨txFrame A P, (exec_txreq_eq A P s).trans henc, henc,
    (matchesPattern_txreqPattern_iff _).mpr ⟨_, _, A, _, hA, txFrame_eq_outboundBytes A P⟩,
    (decodeOutbound_eq_ok_iff _ _).mpr ⟨A, P, rfl, rfl, hA, hP⟩⟩

/-- Settles O18: each result is an expression in the operands alone. -/
theorem statelessOperationsTouchNoState : Obligations.StatelessOperationsTouchNoState := by
  have henc (A P : List Byte) :
      ∃ r, ∀ s, exec (.enc A P) s = .next { s with results := s.results ++ [r] } := by
    obtain ⟨r, hr, -⟩ := encIsPure A P
    exact ⟨r, hr⟩
  exact ⟨henc, henc, fun S => ⟨_, exec_csum_eq S⟩, fun S c => ⟨_, exec_csvfy_eq S c⟩⟩

/-! The checksum unit. -/

/-- Settles O24: the checksum is a function of the sum. -/
theorem csumIgnoresByteOrder : Obligations.CsumIgnoresByteOrder := by
  intro S T s hperm
  have hsum : csum S = csum T := by rw [csum, csum, byteSum_perm hperm]
  rw [exec_csum_eq, exec_csum_eq, hsum]

/-- `CSVFY` returns 1 exactly when the verdict holds. -/
theorem exec_csvfy_eq_one_iff (S : List Byte) (c : Byte) (s : State) :
    exec (.csvfy S c) s = .next { s with results := s.results ++ [.value (.bit 1)] } ↔ verify S c = true := by
  rw [exec_csvfy_eq]
  cases verify S c <;> simp [State.give]

/-- `CSVFY` returns 0 exactly when the verdict fails. -/
theorem exec_csvfy_eq_zero_iff (S : List Byte) (c : Byte) (s : State) :
    exec (.csvfy S c) s = .next { s with results := s.results ++ [.value (.bit 0)] } ↔ ¬ verify S c = true := by
  rw [exec_csvfy_eq]
  cases verify S c <;> simp [State.give]

/-- `CSUM` returns a byte exactly when it is the checksum. -/
theorem exec_csum_eq_byte_iff (S : List Byte) (c : Byte) (s : State) :
    exec (.csum S) s = .next { s with results := s.results ++ [.value (.byte c)] } ↔ c = csum S := by
  rw [exec_csum_eq]
  simp [State.give, eq_comm]

/-- Settles O26: the verdict holds for the checksum byte and no other (R123). -/
theorem csvfyAcceptsOnlyTheCsumByte : Obligations.CsvfyAcceptsOnlyTheCsumByte := by
  intro S c s
  rw [exec_csvfy_eq_one_iff, exec_csum_eq_byte_iff, verify_eq_true_iff_csum]

/-- Settles O27: a changed covered byte moves the sum, and two bytes cannot both be the checksum. -/
theorem singleByteErrorsAreDetected : Obligations.SingleByteErrorsAreDetected := by
  intro S c y n s hok
  have hv := (exec_csvfy_eq_one_iff S c s).mp hok
  refine ⟨fun hn hy => (exec_csvfy_eq_zero_iff _ _ s).mpr fun hv' => ?_,
    fun hy => (exec_csvfy_eq_zero_iff _ _ s).mpr fun hv' => ?_⟩
  · have hne := byteSum_set_mod_ne hn hy
    rw [verify_eq_true_iff] at hv hv'
    omega
  · rw [verify_eq_true_iff_csum] at hv hv'
    exact hy (hv'.trans hv.symm)

end Sys2Proof.Machine
end

section
/-! PROOF. `FEED` on one byte: when it stops, what it returns, what it leaves unchanged; and the kinds of
result of every operation. -/

namespace Sys2Proof.Machine

/-! When `FEED` completes and when it stops. -/

theorem exec_feed_next_iff (b : Byte) (s t : State) :
    exec (.feed b) s = .next t ↔ ∃ r u, feedByte b s = .ok (r, u) ∧ t = u.give [r] := by
  simp only [exec, execFeed, complete]
  cases feedByte b s with
  | error f => simp
  | ok p => simp [eq_comm, Prod.ext_iff]

theorem exec_feed_fault_iff (b : Byte) (s : State) (f : Fault) :
    exec (.feed b) s = .fault f ↔ feedByte b s = .error f := by
  simp only [exec, execFeed, complete]
  cases feedByte b s <;> simp

/-- Settles O34: the body arm is the only one with a guard on an index. -/
theorem feedStopsOnlyOutsideRxbuf : Obligations.FeedStopsOnlyOutsideRxbuf :=
  fun b s f => (exec_feed_fault_iff b s f).trans (feedByte_error_iff b s f)

/-- Settles O10: nothing is buffered at reset, and the decoder is in `Seeking`. -/
theorem resetMeetsTheInvariant : Obligations.ResetMeetsTheInvariant := .of_seeking rfl rfl

/-- Whatever `FEED` leaves meets the invariant. -/
theorem feedByte_inv {b : Byte} {s u : State} {r : Response} (hinv : s.Inv) (h : feedByte b s = .ok (r, u)) :
    u.Inv := by
  obtain ⟨_, _, hfeed, hu⟩ := feedByte_completes b hinv
  cases hfeed.symm.trans h
  exact hu

/-! What `FEED` returns. -/

/-- Anything but None comes from the body arm, is a frame or a mismatch, and leaves the decoder in `Seeking`
(R146). -/
theorem finishBody_result (s : State) :
    finishBody s = (.none, s) ∨
      (finishBody s).2 = s.toSeeking ∧
        ((∃ f, (finishBody s).1 = .frame f) ∨ (finishBody s).1 = .errChecksumMismatch) := by
  obtain ⟨-, h⟩ | ⟨-, -, h⟩ | ⟨-, -, h⟩ := finishBody_cases s
  · exact .inl h
  · exact .inr ⟨by rw [h], .inl ⟨_, by rw [h]⟩⟩
  · exact .inr ⟨by rw [h], .inr (by rw [h])⟩

theorem feedByte_result {b : Byte} {s u : State} {r : Response} (h : feedByte b s = .ok (r, u)) :
    r = .none ∨
      s.rxState = .readingBody ∧ u.rxState = .seeking ∧ ((∃ f, r = .frame f) ∨ r = .errChecksumMismatch) := by
  obtain ⟨-, -, hp⟩ | ⟨-, -, hp⟩ | ⟨-, -, hp⟩ | ⟨-, -, -, hp⟩ | ⟨-, -, -, hp⟩ | ⟨hs, -, hp⟩ := feedByte_cases h
  iterate 5 exact .inl (congrArg Prod.fst hp)
  · obtain hnone | ⟨hstate, hresult⟩ := finishBody_result (s.storeBody b) <;> rw [← hp] at *
    · exact .inl (congrArg Prod.fst hnone)
    · exact .inr ⟨hs, congrArg State.rxState hstate, hresult⟩

/-- Settles O33: the invariant keeps the store inside `RXBUF`, and no arm answers anything else. -/
theorem feedIsTotal : Obligations.FeedIsTotal := by
  intro b s hinv
  obtain ⟨r, t, hfeed, -⟩ := feedByte_completes b hinv
  refine ⟨r, _, exec_feed_of_ok hfeed, congrArg (· ++ [r]) (feedByte_keeps_caller hfeed).2, ?_⟩
  exact (feedByte_result hfeed).imp_right fun ⟨_, _, hresult⟩ => hresult

/-- A frame is returned for the checksum byte of a whole body that it verifies (R146, R196). -/
theorem feedByte_frame {b : Byte} {s u : State} {f : Frame} (hinv : s.Inv)
    (h : feedByte b s = .ok (.frame f, u)) :
    s.rxState = .readingBody ∧ s.rxCount.toNat = s.bodyLen ∧ f.body = s.rxbuf.prefixBytes s.bodyLen ∧
      verify f.body b = true ∧ u.abs = .seeking := by
  obtain hnone | ⟨hs, hseek, -⟩ := feedByte_result h
  · cases hnone
  · obtain hcount | hcount := Nat.lt_or_eq_of_le (hinv.countBound hs)
    · cases (feedByte_bodyByte b hs hcount).symm.trans h
    · have hchecksum := congrArg Prod.fst
        (Except.ok.inj ((feedByte_checksumByte b hinv.canonical hs hcount).symm.trans h))
      split at hchecksum
      · rename_i hv
        cases hchecksum
        exact ⟨hs, hcount, rfl, hv, u.abs_eq_seeking_iff.mpr hseek⟩
      · cases hchecksum

/-- The one result of a `FEED` is its arm's. -/
theorem feedByte_of_exec_feed {b : Byte} {s t : State} {r : Response} (hexec : exec (.feed b) s = .next t)
    (hres : t.results = s.results ++ [r]) : ∃ u, feedByte b s = .ok (r, u) ∧ t = u.give [r] := by
  obtain ⟨r', u, hfeed, rfl⟩ := (exec_feed_next_iff b s t).mp hexec
  rw [State.give_results, (feedByte_keeps_caller hfeed).2, List.append_cancel_left_eq] at hres
  cases hres
  exact ⟨u, hfeed, rfl⟩

/-- Settles O36: under the invariant the whole body is buffered when its checksum byte comes. -/
theorem framesAreAlwaysVerified : Obligations.FramesAreAlwaysVerified := by
  intro b s t f hinv hexec hres
  obtain ⟨u, hfeed, rfl⟩ := feedByte_of_exec_feed hexec hres
  obtain ⟨hs, hcount, hbody, hv, hseek⟩ := feedByte_frame hinv hfeed
  refine ⟨hs, by rw [hbody, hcount], ?_, (verify_eq_true_iff _ _).mp hv, hseek⟩
  rw [hbody, Memory.prefixBytes_length, State.bodyLen, Config.lenBias]

/-! What `FEED` leaves unchanged. -/

/-- A byte of `RXBUF` other than the one stored reads as before. -/
theorem feedByte_read_of_not_stored {b : Byte} {s : State} {p : Response × State} {a : Nat}
    (h : feedByte b s = .ok p) (ha : s.storeIndex ≠ some a) : p.2.rxbuf.read a = s.rxbuf.read a := by
  obtain ⟨-, -, rfl⟩ | ⟨-, -, rfl⟩ | ⟨-, -, rfl⟩ | ⟨-, -, -, rfl⟩ | ⟨-, -, -, rfl⟩ | ⟨hs, -, rfl⟩ :=
    feedByte_cases h
  iterate 5 rfl
  · have hother : a ≠ s.rxCount.toNat := by
      rintro rfl
      exact ha (by simp only [State.storeIndex, hs])
    have hstore : (s.storeBody b).rxbuf.read a = s.rxbuf.read a := Memory.read_write_other _ _ hother
    obtain h | ⟨h, -⟩ := finishBody_result (s.storeBody b) <;> rw [h] <;> exact hstore

/-- Settles O37: under the invariant the index is at most the body's length. -/
theorem storesStayInsideRxbuf : Obligations.StoresStayInsideRxbuf := by
  have hindex (s : State) (a : Nat) (hinv : s.Inv) (ha : s.storeIndex = some a) : a ≤ 65534 := by
    unfold State.storeIndex at ha
    split at ha
    · cases ha
    · cases ha
    · rename_i hs
      cases ha
      exact (hinv.countBound hs).trans s.bodyLen_le
  refine ⟨hindex, fun b s t a hinv hexec ha => ?_⟩
  obtain ⟨r, u, hfeed, rfl⟩ := (exec_feed_next_iff b s t).mp hexec
  exact feedByte_read_of_not_stored hfeed fun h => absurd (hindex s a hinv h) (Nat.not_le.mpr ha)

/-- The body arm writes no register of the length field. -/
theorem finishBody_keeps_length (s : State) :
    (finishBody s).2.lenHi = s.lenHi ∧ (finishBody s).2.declaredLen = s.declaredLen ∧
      (finishBody s).2.highByteSeen = s.highByteSeen := by
  obtain h | ⟨h, -⟩ := finishBody_result s <;> simp [h]

/-- Settles O35: register by register, each arm writes only what the clause lets it write. -/
theorem feedFrameCondition : Obligations.FeedFrameCondition := by
  intro b s t hexec
  obtain ⟨r, u, hfeed, rfl⟩ := (exec_feed_next_iff b s t).mp hexec
  obtain ⟨hpend, hres⟩ := feedByte_keeps_caller hfeed
  have hread (a : Nat) (ha : s.storeIndex ≠ some a) := feedByte_read_of_not_stored hfeed ha
  refine ⟨hpend, ⟨r, congrArg (· ++ [r]) hres⟩, ?_⟩
  obtain ⟨hs, hb, hp⟩ | ⟨hs, -, hp⟩ | ⟨hs, hseen, hp⟩ | ⟨hs, hseen, -, hp⟩ | ⟨hs, hseen, -, hp⟩ | ⟨hs, -, hp⟩ :=
    feedByte_cases hfeed
  · cases hp
    simp [hs, show b = 0x7E from hb]
  · cases hp
    simp [hs]
  · cases hp
    simp [hs, hseen]
  · cases hp
    simp [hs, hseen]
  · cases hp
    simp [hs, hseen]
  · have hlength : s.rxCount.toNat + 1 < s.declaredLen.toNat - 1 + 1 → u.rxState = .readingBody := fun hcount => by
      cases (feedByte_bodyByte b hs (Nat.lt_of_succ_lt_succ hcount)).symm.trans hfeed
      exact hs
    have hregs := finishBody_keeps_length (s.storeBody b)
    rw [← hp] at hregs
    obtain ⟨hhi, hlen, hseen⟩ := hregs
    exact ⟨fun _ => hhi, fun _ => hlen, fun _ _ => hseen, fun hnot => absurd hs hnot, by simp [hs], by simp [hs],
      fun _ => hlength, hread⟩

/-! The kinds of result of every operation (Table R82). -/

/-- A chunk that completes: its first `FEED`, then the rest. -/
theorem feedBytes_cons_ok {b : Byte} {S : List Byte} {s t : State} {rs : List Response}
    (h : feedBytes (b :: S) s = .ok (rs, t)) :
    ∃ r u qs, feedByte b s = .ok (r, u) ∧ feedBytes S u = .ok (qs, t) ∧ rs = if r.isSome then r :: qs else qs := by
  simp only [feedBytes] at h
  split at h
  · cases h
  · rename_i r u hfeed
    split at h
    · cases h
    · rename_i qs v hfeeds
      cases h
      exact ⟨r, u, qs, hfeed, hfeeds, rfl⟩

/-- `FEEDN` keeps the results that are not None: frames and mismatches. -/
theorem feedBytes_result {S : List Byte} {s t : State} {rs : List Response} (h : feedBytes S s = .ok (rs, t)) :
    ∀ r ∈ rs, r.kind ∈ ([2, 4] : List (BitVec 3)) := by
  induction S generalizing s rs with
  | nil =>
    cases h
    simp
  | cons b S ih =>
    obtain ⟨r, u, qs, hfeed, hfeeds, rfl⟩ := feedBytes_cons_ok h
    obtain rfl | ⟨-, -, ⟨f, rfl⟩ | rfl⟩ := feedByte_result hfeed
    · exact ih hfeeds
    · exact List.forall_mem_cons.mpr ⟨by simp [Response.kind], ih hfeeds⟩
    · exact List.forall_mem_cons.mpr ⟨by simp [Response.kind], ih hfeeds⟩

theorem feedAll_result {S : List Byte} {s t : State} (h : feedAll S s = .next t) :
    ∃ rs, t.results = s.results ++ rs ∧ ∀ r ∈ rs, r.kind ∈ ([2, 4] : List (BitVec 3)) := by
  obtain ⟨rs, u, hfeeds, rfl⟩ := (feedAll_next_iff S s t).mp h
  exact ⟨rs, congrArg (· ++ rs) (feedBytes_keeps_caller hfeeds).2, feedBytes_result hfeeds⟩

/-- A core operation that completes gives one result, of a kind of its row (Table R82). -/
theorem exec_core_result {i : Instr} {s t : State} (hcore : expand i = [i]) (hexec : exec i s = .next t) :
    ∃ (r : Response) (u : State), t = u.give [r] ∧ u.results = s.results ∧ r.kind ∈ resultKinds i := by
  obtain rfl | ⟨A, P, rfl⟩ | ⟨b, rfl⟩ | rfl | ⟨S, rfl⟩ | ⟨S, c, rfl⟩ | rfl | rfl := expand_eq_self_cases hcore
  · cases (exec_rst_eq s).symm.trans hexec
    exact ⟨_, _, rfl, rfl, by decide⟩
  · obtain ⟨r, henc, hr⟩ := encIsPure A P
    cases (henc s).symm.trans hexec
    refine ⟨r, s, rfl, rfl, ?_⟩
    obtain rfl | ⟨F, rfl, -⟩ := hr <;> simp [Response.kind, resultKinds]
  · obtain ⟨r, u, hfeed, rfl⟩ := (exec_feed_next_iff b s t).mp hexec
    refine ⟨r, u, rfl, (feedByte_keeps_caller hfeed).2, ?_⟩
    obtain rfl | ⟨-, -, ⟨f, rfl⟩ | rfl⟩ := feedByte_result hfeed <;> simp [Response.kind, resultKinds]
  · cases (exec_abort_eq s).symm.trans hexec
    refine ⟨_, _, rfl, rfl, ?_⟩
    split <;> decide
  · cases (exec_csum_eq S s).symm.trans hexec
    exact ⟨_, _, rfl, rfl, by simp [Response.kind, resultKinds]⟩
  · cases (exec_csvfy_eq S c s).symm.trans hexec
    exact ⟨_, _, rfl, rfl, by simp [Response.kind, resultKinds]⟩
  · cases hexec
  · cases hexec

/-- Settles O55: a core operation gives one result of its row, a chunk the non-None results of `FEED`. -/
theorem resultsByOperation : Obligations.ResultsByOperation := by
  intro i s t hexec
  have hone {j : Instr} (hcore : expand j = [j]) (hexec : exec j s = .next t) :
      ∃ rs, t.results = s.results ++ rs ∧ (∀ r ∈ rs, r.kind ∈ resultKinds j) ∧ (expand i = [i] → rs.length = 1) := by
    obtain ⟨r, u, rfl, hres, hkind⟩ := exec_core_result hcore hexec
    exact ⟨[r], congrArg (· ++ [r]) hres, by simpa using hkind, fun _ => rfl⟩
  have hchunk {S : List Byte} {u : State} (hi : ¬ expand i = [i]) (hu : u.results = s.results)
      (hfeeds : feedAll S u = .next t) : ∃ rs, t.results = s.results ++ rs ∧
        (∀ r ∈ rs, r.kind ∈ ([2, 4] : List (BitVec 3))) ∧ (expand i = [i] → rs.length = 1) := by
    obtain ⟨rs, hres, hkinds⟩ := feedAll_result hfeeds
    exact ⟨rs, hu ▸ hres, hkinds, fun h => absurd h hi⟩
  cases i with
  | rst => exact hone rfl hexec
  | enc A P => exact hone rfl hexec
  | feed b => exact hone rfl hexec
  | abort => exact hone rfl hexec
  | csum S => exact hone rfl hexec
  | csvfy S c => exact hone rfl hexec
  | reserved6 => cases hexec
  | reserved7 => cases hexec
  | feedn S => exact hchunk (fun h => by simpa using expand_eq_self_cases h) rfl hexec
  | decode S => exact hchunk (u := s.resetDecoder) (fun h => by simpa using expand_eq_self_cases h) rfl hexec
  | txreq A P => exact hone (j := .enc A P) rfl hexec
  | rxframe declaredLen tail => exact hchunk (fun h => by simpa using expand_eq_self_cases h) rfl hexec

/-! Frames returned by any instruction. -/

/-- A frame's body has at least its frame type, and no more than the length field can count (R147). -/
theorem feedByte_frame_bounds {b : Byte} {s u : State} {f : Frame} (hinv : s.Inv)
    (h : feedByte b s = .ok (.frame f, u)) : 1 ≤ f.body.length ∧ f.body.length ≤ 65534 := by
  obtain ⟨hs, -, hbody, -⟩ := feedByte_frame hinv h
  rw [hbody, Memory.prefixBytes_length]
  exact ⟨Nat.le_sub_of_add_le (hinv.hasBody hs), s.bodyLen_le⟩

theorem feedBytes_frame_bounds {S : List Byte} {s t : State} {rs : List Response} {f : Frame} (hinv : s.Inv)
    (h : feedBytes S s = .ok (rs, t)) (hf : .frame f ∈ rs) : 1 ≤ f.body.length ∧ f.body.length ≤ 65534 := by
  induction S generalizing s rs with
  | nil =>
    cases h
    cases hf
  | cons b S ih =>
    obtain ⟨r, u, qs, hfeed, hfeeds, rfl⟩ := feedBytes_cons_ok h
    have hmem : .frame f ∈ r :: qs := by
      split at hf
      · exact hf
      · exact List.mem_cons_of_mem _ hf
    obtain rfl | hrest := List.mem_cons.mp hmem
    · exact feedByte_frame_bounds hinv hfeed
    · exact ih (feedByte_inv hinv hfeed) hfeeds hrest

theorem feedAll_frame_bounds {S : List Byte} {s t : State} {rs : List Response} {f : Frame} (hinv : s.Inv)
    (h : feedAll S s = .next t) (hres : t.results = s.results ++ rs) (hf : .frame f ∈ rs) :
    1 ≤ f.body.length ∧ f.body.length ≤ 65534 := by
  obtain ⟨qs, u, hfeeds, rfl⟩ := (feedAll_next_iff S s t).mp h
  rw [State.give_results, (feedBytes_keeps_caller hfeeds).2, List.append_cancel_left_eq] at hres
  exact feedBytes_frame_bounds hinv hfeeds (hres ▸ hf)

/-- Settles O50: only `FEED`'s rows have the kind of a frame, and there the body was buffered whole. -/
theorem returnedBodiesAreNeverEmpty : Obligations.ReturnedBodiesAreNeverEmpty := by
  intro i s t rs f hinv hexec hres hf
  have hkind : (2 : BitVec 3) ∈ resultKinds i := by
    obtain ⟨qs, hqs, hkinds, -⟩ := resultsByOperation i s t hexec
    obtain rfl := List.append_cancel_left (hres.symm.trans hqs)
    exact hkinds _ hf
  cases i with
  | feed b =>
    obtain ⟨r, u, hfeed, rfl⟩ := (exec_feed_next_iff b s t).mp hexec
    rw [State.give_results, (feedByte_keeps_caller hfeed).2, List.append_cancel_left_eq] at hres
    obtain rfl := List.mem_singleton.mp (hres ▸ hf)
    exact feedByte_frame_bounds hinv hfeed
  | feedn S => exact feedAll_frame_bounds hinv hexec hres hf
  | decode S => exact feedAll_frame_bounds (State.resetDecoder_inv hinv.canonical) hexec hres hf
  | rxframe declaredLen tail => exact feedAll_frame_bounds hinv hexec hres hf
  | _ => exact absurd hkind (by simp [resultKinds])

/-! Errors. -/

/-- Each error is of the kind of one core operation alone (Table R190). -/
theorem errorKind_of_core {i : Instr} {e : ErrorKind} (hcore : expand i = [i])
    (hkind : e.response.kind ∈ resultKinds i) :
    (e = .invalidArgument ∧ ∃ A P, i = .enc A P) ∨ (e = .checksumMismatch ∧ ∃ b, i = .feed b) ∨
      (e = .truncated ∧ i = .abort) := by
  obtain rfl | ⟨A, P, rfl⟩ | ⟨b, rfl⟩ | rfl | ⟨S, rfl⟩ | ⟨S, c, rfl⟩ | rfl | rfl := expand_eq_self_cases hcore
  all_goals
    cases e
    all_goals simp [ErrorKind.response, Response.kind, resultKinds] at hkind ⊢

/-- Settles O56: each error is the answer of one core operation, which says what it leaves. -/
theorem errorsLeaveTheBlockReady : Obligations.ErrorsLeaveTheBlockReady := by
  intro i e s t hcore hexec hres
  have hkind : e.response.kind ∈ resultKinds i := by
    obtain ⟨qs, hqs, hkinds, -⟩ := resultsByOperation i s t hexec
    obtain rfl := List.append_cancel_left (hres.symm.trans hqs)
    exact hkinds _ (List.mem_singleton_self _)
  obtain ⟨rfl, A, P, rfl⟩ | ⟨rfl, b, rfl⟩ | ⟨rfl, rfl⟩ := errorKind_of_core hcore hkind
  · obtain ⟨r, henc, -⟩ := encIsPure A P
    cases (henc s).symm.trans hexec
    exact ⟨fun _ => rfl, fun h => absurd rfl h⟩
  · obtain ⟨u, hfeed, rfl⟩ := feedByte_of_exec_feed hexec hres
    obtain hnone | ⟨hs, hseek, -⟩ := feedByte_result hfeed
    · cases hnone
    · exact ⟨nofun, fun _ => ⟨u.abs_eq_seeking_iff.mpr hseek, by simp [State.abs_eq_seeking_iff, hs]⟩⟩
  · cases (exec_abort_eq s).symm.trans hexec
    have hresponse := List.append_cancel_left hres
    split at hresponse
    · cases hresponse
    · rename_i hs
      exact ⟨nofun, fun _ => ⟨rfl, mt s.abs_eq_seeking_iff.mp hs⟩⟩

end Sys2Proof.Machine
end

section
/-! PROOF. Whole frames in a stream (42_decoder.md section 7): what the abstract decoder makes of them, and by
the simulation what the registers do. -/

namespace Sys2Proof.Machine

/-! The abstract decoder on the parts of a frame. -/

@[simp] theorem Response.isSome_none : Response.none.isSome = false := rfl

/-- Bytes without a delimiter are skipped in `Seeking` (R141). -/
theorem DecoderState.feedn_garbage {G : List Byte} (hG : Config.delim ∉ G) :
    DecoderState.seeking.feedn G = ([], .seeking) := by
  induction G with
  | nil => rfl
  | cons b G ih =>
    obtain ⟨hb, hG⟩ := not_or.mp (mt List.mem_cons.mpr hG)
    simp [DecoderState.feedn, DecoderState.feed, Ne.symm hb, ih hG]

/-- Delimiter and length field: a degenerate length is dropped, any other opens the body (R141 to R144). -/
theorem DecoderState.feedn_header (declaredLen : BitVec 16) :
    DecoderState.seeking.feedn [Config.delim, lenHiByte declaredLen.toNat, lenLoByte declaredLen.toNat] =
      ([], if declaredLen.toNat ≤ Config.lenBias then .seeking else .readingBody declaredLen []) := by
  simp [DecoderState.feedn, DecoderState.feed, assembleLen_bytes_bitvec]

/-- Bytes before the checksum byte are buffered with no result (R145). -/
theorem DecoderState.feedn_body (declaredLen : BitVec 16) (S buffer : List Byte)
    (h : buffer.length + S.length ≤ declaredLen.toNat - Config.lenBias) :
    (DecoderState.readingBody declaredLen buffer).feedn S = ([], .readingBody declaredLen (buffer ++ S)) := by
  induction S generalizing buffer with
  | nil => simp [DecoderState.feedn]
  | cons b S ih =>
    rw [List.length_cons] at h
    have hfeed := DecoderState.feed_body declaredLen buffer b (by omega)
    have hrest := ih (buffer ++ [b]) (by rw [List.length_append, List.length_singleton]; omega)
    simp [DecoderState.feedn, hfeed, hrest]

/-- A body and its checksum byte, as one verdict over all their bytes (R146). -/
theorem DecoderState.feedn_tail {declaredLen : BitVec 16} {tail : List Byte} (hbody : 1 < declaredLen.toNat)
    (hlen : tail.length = declaredLen.toNat) :
    (DecoderState.readingBody declaredLen []).feedn tail = ([tailResult tail], .seeking) := by
  obtain rfl | ⟨body, c, rfl⟩ := tail.eq_nil_or_concat'
  · rw [← hlen] at hbody
    cases hbody
  · have hk : body.length = declaredLen.toNat - Config.lenBias := by
      simp only [List.length_append, List.length_singleton] at hlen
      simp only [Config.lenBias]
      omega
    have hresult : tailResult (body ++ [c]) = if verify body c then .frame ⟨body⟩ else .errChecksumMismatch := by
      simp [tailResult, verify_eq_true_iff, byteSum_append]
    have hsome : (tailResult (body ++ [c])).isSome = true := by
      rw [hresult]
      split <;> rfl
    rw [DecoderState.feedn_append, DecoderState.feedn_body _ _ _ (by simp [hk]), List.nil_append, List.nil_append]
    simp [DecoderState.feedn, DecoderState.feed_checksum _ _ _ hk, ← hresult, hsome]

/-- How many bytes follow a length field that leaves a body. -/
theorem tailLen_of_body {declaredLen : BitVec 16} (hbody : 1 < declaredLen.toNat) :
    tailLen declaredLen = declaredLen.toNat := by
  rw [tailLen, Config.lenBias, if_neg (Nat.not_le.mpr hbody)]
  omega

/-- A frame is its header and the bytes after it. -/
theorem DecoderState.feedn_rxFrame {declaredLen : BitVec 16} {tail : List Byte} (hbody : 1 < declaredLen.toNat)
    (hlen : tail.length = declaredLen.toNat) :
    DecoderState.seeking.feedn (rxFrame declaredLen tail) = ([tailResult tail], .seeking) := by
  have hopen : ¬ declaredLen.toNat ≤ Config.lenBias := Nat.not_le.mpr hbody
  rw [rxFrame, DecoderState.feedn_append, DecoderState.feedn_header, if_neg hopen,
    DecoderState.feedn_tail hbody hlen, List.nil_append]

/-- A frame with a degenerate length is three bytes, and dropped (R144). -/
theorem DecoderState.feedn_rxFrame_degenerate {declaredLen : BitVec 16} (hdegenerate : declaredLen.toNat ≤ 1) :
    DecoderState.seeking.feedn (rxFrame declaredLen []) = ([], .seeking) := by
  have hclosed : declaredLen.toNat ≤ Config.lenBias := hdegenerate
  rw [rxFrame, List.append_nil, DecoderState.feedn_header, if_pos hclosed]

/-- Inside a frame nothing has been returned, and the decoder is not in `Seeking` (R158). -/
theorem DecoderState.feedn_rxFrame_take {declaredLen : BitVec 16} {tail : List Byte} {n : Nat}
    (hbody : 1 < declaredLen.toNat) (hlen : tail.length = declaredLen.toNat) (hpos : 0 < n)
    (hn : n < 3 + tail.length) :
    ∃ d, DecoderState.seeking.feedn ((rxFrame declaredLen tail).take n) = ([], d) ∧ d ≠ .seeking := by
  match n, hpos with
  | 1, _ => exact ⟨_, rfl, nofun⟩
  | 2, _ => exact ⟨_, rfl, nofun⟩
  | m + 3, _ =>
    have htake : (rxFrame declaredLen tail).take (m + 3) =
        [Config.delim, lenHiByte declaredLen.toNat, lenLoByte declaredLen.toNat] ++ tail.take m := rfl
    have hopen : ¬ declaredLen.toNat ≤ Config.lenBias := Nat.not_le.mpr hbody
    have hfit : ([] : List Byte).length + (tail.take m).length ≤ declaredLen.toNat - Config.lenBias := by
      rw [List.length_take, List.length_nil, Config.lenBias]
      omega
    rw [htake, DecoderState.feedn_append, DecoderState.feedn_header, if_neg hopen,
      DecoderState.feedn_body _ _ _ hfit]
    exact ⟨_, rfl, nofun⟩

/-- Frames back to back, with garbage before each, give their results in order (R160). -/
theorem DecoderState.feedn_frames (fs : List (List Byte × BitVec 16 × List Byte))
    (hfs : ∀ f ∈ fs, Config.delim ∉ f.1 ∧ 1 < f.2.1.toNat ∧ f.2.2.length = f.2.1.toNat) :
    DecoderState.seeking.feedn (fs.flatMap fun f => f.1 ++ rxFrame f.2.1 f.2.2) =
      (fs.map fun f => tailResult f.2.2, .seeking) := by
  induction fs with
  | nil => rfl
  | cons f fs ih =>
    obtain ⟨⟨hG, hbody, hlen⟩, hfs⟩ := List.forall_mem_cons.mp hfs
    rw [List.flatMap_cons, List.map_cons, DecoderState.feedn_append, DecoderState.feedn_append,
      DecoderState.feedn_garbage hG, DecoderState.feedn_rxFrame hbody hlen, ih hfs]
    rfl

/-! The registers on a stream. -/

/-- Settles O43: the frame's bytes, taken in `Seeking`, by the length that opens a body or does not. -/
theorem inboundFrameGivesItsResult : Obligations.InboundFrameGivesItsResult := by
  intro declaredLen tail s hwell hwf hs
  have hlen : tail.length = tailLen declaredLen := by simpa [Instr.wellFormed] using hwell
  obtain ⟨t, hexec, ht⟩ := feedAll_realises_of_seeking (rxFrame declaredLen tail) hwf hs
  obtain ⟨-, habs, hres, -⟩ := ht
  obtain hbody | hdegenerate := Nat.lt_or_ge 1 declaredLen.toNat
  · rw [DecoderState.feedn_rxFrame hbody (hlen.trans (tailLen_of_body hbody))] at habs hres
    exact ⟨t, hexec, habs, fun h => absurd hbody (Nat.not_lt.mpr h), fun _ => hres⟩
  · obtain rfl : tail = [] := List.eq_nil_of_length_eq_zero (hlen.trans (if_pos hdegenerate))
    rw [DecoderState.feedn_rxFrame_degenerate hdegenerate] at habs hres
    exact ⟨t, hexec, habs, fun _ => by simpa using hres, fun h => absurd h (Nat.not_lt.mpr hdegenerate)⟩

/-- Settles O44: a proper part of a frame ends in its header or in its body. -/
theorem noResultBeforeTheLastByte : Obligations.NoResultBeforeTheLastByte := by
  intro declaredLen tail n s hwell hbody hwf hs hpos hn
  have hlen : tail.length = declaredLen.toNat :=
    (by simpa [Instr.wellFormed] using hwell : tail.length = tailLen declaredLen).trans (tailLen_of_body hbody)
  obtain ⟨d, hfeedn, hd⟩ := DecoderState.feedn_rxFrame_take hbody hlen hpos hn
  obtain ⟨t, hexec, ht⟩ := feedAll_realises_of_seeking ((rxFrame declaredLen tail).take n) hwf hs
  rw [hfeedn] at ht
  exact ⟨t, hexec, by simpa using ht.results, ht.abs ▸ hd⟩

/-- Settles O47: the abstract decoder is back in `Seeking` after every frame, bad ones included. -/
theorem backToBackFrames : Obligations.BackToBackFrames := by
  intro fs s hwf hs hfs
  obtain ⟨t, hexec, ht⟩ := feedAll_realises_of_seeking (fs.flatMap fun f => f.1 ++ rxFrame f.2.1 f.2.2) hwf hs
  rw [DecoderState.feedn_frames fs hfs] at ht
  exact ⟨t, hexec, ht.results, ht.abs⟩

/-- Garbage is skipped by the registers too, without a change (R157); no invariant is needed. -/
theorem feedBytes_garbage {G : List Byte} {s : State} (hs : s.rxState = .seeking) (hG : Config.delim ∉ G) :
    feedBytes G s = .ok ([], s) := by
  induction G with
  | nil => rfl
  | cons b G ih =>
    obtain ⟨hb, hG⟩ := not_or.mp (mt List.mem_cons.mpr hG)
    simp [feedBytes, feedByte_seeking b hs, Ne.symm hb, ih hG]

theorem execAll_singleton (i : Instr) (s : State) : execAll [i] s = exec i s := by
  rw [execAll]
  cases exec i s <;> rfl

/-- Settles O46: after the garbage the state is the same state. -/
theorem garbageIsSkipped : Obligations.GarbageIsSkipped := by
  intro G F s hs hG
  have hskip : exec (.feedn G) s = .next s :=
    (feedAll_next_iff G s s).mpr ⟨[], s, feedBytes_garbage hs hG, s.give_nil.symm⟩
  rw [exec_feedn_append, execAll, hskip]
  exact execAll_singleton _ s

/-! The frames `ENC` returns. -/

/-- The length field of an encoded frame counts its body and checksum byte. -/
theorem frameLen_toNat {A P : List Byte} (hA : A.length = 8) (hP : P.length ≤ 65520) :
    (BitVec.ofNat 16 (frameLen P)).toNat = frameLen P ∧ 1 < frameLen P ∧
      (txBody A P ++ [csum (txBody A P)]).length = frameLen P := by
  rw [BitVec.toNat_ofNat, List.length_append, List.length_singleton, txBody_length, frameLen_eq, hA]
  omega

/-- An outbound frame is an inbound frame with the body and checksum byte after its length field. -/
theorem txFrame_eq_rxFrame {A P : List Byte} (hA : A.length = 8) (hP : P.length ≤ 65520) :
    txFrame A P = rxFrame (BitVec.ofNat 16 (frameLen P)) (txBody A P ++ [csum (txBody A P)]) := by
  rw [rxFrame, (frameLen_toNat hA hP).1, txFrame, List.append_assoc]

/-- An encoded frame, with any bytes of the same number for its body and checksum byte, gives one verdict. -/
theorem DecoderState.feedn_encoded {A P tail : List Byte} (hA : A.length = 8) (hP : P.length ≤ 65520)
    (htail : tail.length = (txBody A P ++ [csum (txBody A P)]).length) :
    DecoderState.seeking.feedn (rxFrame (BitVec.ofNat 16 (frameLen P)) tail) = ([tailResult tail], .seeking) := by
  obtain ⟨htoNat, hbody, hlen⟩ := frameLen_toNat hA hP
  exact DecoderState.feedn_rxFrame (by rwa [htoNat]) (by rw [htail, hlen, htoNat])

/-- A body with its own checksum byte is returned. -/
theorem tailResult_checked (S : List Byte) : tailResult (S ++ [csum S]) = .frame ⟨S⟩ := by
  rw [tailResult, if_pos (byteSum_append_csum S), List.dropLast_concat]

/-- The body as its segments: frame type and id, address, the fixed bytes, payload. -/
theorem txBody_eq_segments (A P : List Byte) : txBody A P = 0x10 :: 0x01 :: (A ++ (txFixed ++ P)) := by
  simp [txBody, txFixed, Config.ftTxreq, Config.frameId, Config.netAddr, Config.radius, Config.options]

/-- The address and what follows it. -/
theorem txBody_drop_two (A P : List Byte) : (txBody A P).drop 2 = A ++ (txFixed ++ P) := by
  rw [txBody_eq_segments]
  rfl

/-- The fixed bytes and the payload. -/
theorem txBody_drop_ten {A : List Byte} (hA : A.length = 8) (P : List Byte) :
    (txBody A P).drop 10 = txFixed ++ P := by
  rw [show 10 = 2 + 8 from rfl, ← List.drop_drop, txBody_drop_two, List.drop_left' hA]

/-- The views of an encoded frame's body: each finds its segment (R147). -/
theorem txBody_views {A : List Byte} (hA : A.length = 8) (P : List Byte) :
    Frame.frameType ⟨txBody A P⟩ = some 0x10 ∧ Frame.frameId ⟨txBody A P⟩ = some 0x01 ∧
      Frame.address ⟨txBody A P⟩ = some A ∧ Frame.netAddr ⟨txBody A P⟩ = some [0xFF, 0xFE] ∧
      Frame.radius ⟨txBody A P⟩ = some 0x00 ∧ Frame.options ⟨txBody A P⟩ = some 0x00 ∧
      Frame.payload ⟨txBody A P⟩ = some P := by
  have hlen : (txBody A P).length = 14 + P.length := by rw [txBody_length, hA]
  have hten := txBody_drop_ten hA P
  refine ⟨by rw [Frame.frameType, txBody_eq_segments]; rfl, by rw [Frame.frameId, txBody_eq_segments]; rfl,
    (Frame.slice_eq_some _ _ _ _).mpr ⟨?_, ?_⟩, (Frame.slice_eq_some _ _ _ _).mpr ⟨?_, ?_⟩, ?_, ?_,
    (Frame.payload_eq_some _ _).mpr ⟨?_, ?_⟩⟩
  · rw [hlen, Config.addrLen]
    omega
  · rw [txBody_drop_two]
    exact (List.take_left' hA).symm
  · rw [hlen]
    omega
  · rw [hten]
    rfl
  · rw [Frame.radius, show 12 = 10 + 2 from rfl, ← List.getElem?_drop, hten]
    rfl
  · rw [Frame.options, show 13 = 10 + 3 from rfl, ← List.getElem?_drop, hten]
    rfl
  · rw [hlen]
    exact Nat.le_add_right 14 _
  · rw [show Config.metaLen = 10 + 4 from rfl, ← List.drop_drop, hten]
    rfl

/-- Settles O45: what follows the frame's length field is its body with its own checksum byte. -/
theorem decodeOfEncodedFrame : Obligations.DecodeOfEncodedFrame := by
  intro A P s hA hP hwf
  have hfeedn : DecoderState.seeking.feedn (txFrame A P) = ([.frame ⟨txBody A P⟩], .seeking) := by
    rw [txFrame_eq_rxFrame hA hP, DecoderState.feedn_encoded hA hP rfl, tailResult_checked]
  obtain ⟨t, hexec, ht⟩ := exec_decode_realises (txFrame A P) hwf
  rw [hfeedn] at ht
  refine ⟨txFrame A P, ⟨txBody A P⟩, t, exec_enc_of_legal A P s hA hP, hexec, ht.results, ht.abs, fun hs => ?_,
    txBody_views hA P⟩
  obtain ⟨t', hexec', ht'⟩ := feedAll_realises_of_seeking (txFrame A P) hwf hs
  rw [hfeedn] at ht'
  exact ⟨t', hexec', ht'.results, ht'.abs⟩

/-- Settles O48: the changed byte moves the sum off 0xFF. -/
theorem damagedFrameIsReported : Obligations.DamagedFrameIsReported := by
  intro A P F n y s hwf henc hfrom hn hy
  obtain ⟨hA, hP, rfl⟩ := (exec_enc_eq_bytes_iff A P F s).mp henc
  obtain ⟨m, rfl⟩ := Nat.exists_eq_add_of_le' hfrom
  rw [txFrame_eq_rxFrame hA hP] at hn hy ⊢
  have hset : (rxFrame (BitVec.ofNat 16 (frameLen P)) (txBody A P ++ [csum (txBody A P)])).set (m + 3) y =
      rxFrame (BitVec.ofNat 16 (frameLen P)) ((txBody A P ++ [csum (txBody A P)]).set m y) := rfl
  have hm : m < (txBody A P ++ [csum (txBody A P)]).length := by
    rw [rxFrame_length] at hn
    omega
  have hsum := byteSum_set_mod_ne hm hy
  rw [byteSum_append_csum] at hsum
  obtain ⟨t, hexec, ht⟩ := exec_decode_realises
    ((rxFrame (BitVec.ofNat 16 (frameLen P)) (txBody A P ++ [csum (txBody A P)])).set (m + 3) y) hwf
  rw [hset, DecoderState.feedn_encoded hA hP List.length_set, tailResult, if_neg hsum] at ht
  exact ⟨t, hexec, ht.results, ht.abs⟩

end Sys2Proof.Machine
end

section
/-! PROOF. Chunks and pseudo-operations as the operations they stand for (R84, R152, R155), and what a chunk
leaves unchanged. -/

namespace Sys2Proof.Machine

/-! Chunks. -/

theorem exec_feedn_nil (s : State) : exec (.feedn []) s = .next s := congrArg Host.Outcome.next s.give_nil

/-- Settles O39: by induction on the chunks; two of them are one (R66). -/
theorem chunkBoundariesDoNotMatter : Obligations.ChunkBoundariesDoNotMatter := by
  intro Ss s
  induction Ss generalizing s with
  | nil => exact (exec_feedn_nil s).symm
  | cons S Ss ih =>
    rw [List.flatten_cons, exec_feedn_append, List.map_cons, execAll, execAll]
    cases exec (.feedn S) s with
    | next t => exact (ih t).trans (execAll_singleton _ t).symm
    | fault f => rfl
    | refused w => rfl

/-- A byte of `RXBUF` that no `FEED` of a chunk stores to reads as before. -/
theorem feedBytes_read_of_not_stored {S : List Byte} {s t : State} {rs : List Response} {a : Nat}
    (h : feedBytes S s = .ok (rs, t))
    (ha : ∀ p b q qs u, S = p ++ b :: q → feedBytes p s = .ok (qs, u) → u.storeIndex ≠ some a) :
    t.rxbuf.read a = s.rxbuf.read a := by
  induction S generalizing s rs with
  | nil =>
    cases h
    rfl
  | cons b S ih =>
    have hfirst : s.storeIndex ≠ some a := ha [] b S [] s rfl rfl
    obtain ⟨r, u, qs, hfeed, hfeeds, -⟩ := feedBytes_cons_ok h
    have hrest : t.rxbuf.read a = u.rxbuf.read a := ih hfeeds fun p c q ps v hS hp =>
      ha (b :: p) c q (if r.isSome then r :: ps else ps) v (congrArg (b :: ·) hS) (by
        simp only [feedBytes, hfeed, hp])
    exact hrest.trans (feedByte_read_of_not_stored hfeed hfirst)

/-- What a chunk leaves unchanged. -/
theorem feedAll_frameCondition {S : List Byte} {s t : State} (h : feedAll S s = .next t) :
    t.pending = s.pending ∧ s.results <+: t.results ∧
      ∀ a, (∀ p b q u, S = p ++ b :: q → feedAll p s = .next u → u.storeIndex ≠ some a) →
        t.rxbuf.read a = s.rxbuf.read a := by
  obtain ⟨rs, u, hfeeds, rfl⟩ := (feedAll_next_iff S s t).mp h
  obtain ⟨hpend, hres⟩ := feedBytes_keeps_caller hfeeds
  refine ⟨hpend, ⟨rs, by rw [State.give_results, hres]⟩, fun a ha => ?_⟩
  have hread : u.rxbuf.read a = s.rxbuf.read a := feedBytes_read_of_not_stored hfeeds fun p b q qs v hS hp =>
    ha p b q (v.give qs) hS ((feedAll_next_iff p s _).mpr ⟨qs, v, hp, rfl⟩)
  exact hread

/-- Settles O40: `DECODE` is a chunk after the registers `RST` writes, and an inbound frame is a chunk. -/
theorem chunkFrameCondition : Obligations.ChunkFrameCondition :=
  ⟨fun _ _ _ => feedAll_frameCondition, fun _ s _ => feedAll_frameCondition (s := s.resetDecoder),
    fun _ _ _ _ => feedAll_frameCondition⟩

/-- Settles O41: `RST` leaves `Seeking`, and from there the abstract decoder alone says what happens. -/
theorem decodeStartsAfresh : Obligations.DecodeStartsAfresh := by
  refine ⟨fun S s => ⟨_, exec_rst_eq s, rfl⟩, fun S s s' hwf hwf' => ?_⟩
  obtain ⟨t, hexec, ht⟩ := exec_decode_realises S hwf
  obtain ⟨t', hexec', ht'⟩ := exec_decode_realises S hwf'
  exact ⟨_, t, t', hexec, hexec', ht.results, ht'.results, ht.abs.trans ht'.abs.symm⟩

/-! Expansions. -/

/-- A `FEED` does not see the results given before it, whether it completes or stops. -/
theorem exec_feed_give_next {b : Byte} {s t : State} {qs : List Response}
    (h : exec (.feed b) (s.give qs) = .next t) :
    ∃ r u, feedByte b s = .ok (r, u) ∧ t = u.give (qs ++ [r]) := by
  cases hfeed : feedByte b s with
  | error f =>
    have hstop : feedByte b (s.give qs) = .error f :=
      (feedByte_error_iff b (s.give qs) f).mpr ((feedByte_error_iff b s f).mp hfeed)
    cases ((exec_feed_fault_iff b _ f).mpr hstop).symm.trans h
  | ok p =>
    cases (exec_feed_give hfeed qs).symm.trans h
    exact ⟨p.1, p.2, rfl, rfl⟩

/-- When the `FEED`s of a chunk complete one after another, `FEEDN` completes with their non-None results. -/
theorem feedBytes_of_execAll_feeds {S : List Byte} {s t : State} {qs : List Response}
    (h : execAll (S.map .feed) (s.give qs) = .next t) :
    ∃ rs u, feedBytes S s = .ok (rs.filter Response.isSome, u) ∧ t = u.give (qs ++ rs) := by
  induction S generalizing s qs with
  | nil =>
    cases h
    exact ⟨[], s, rfl, by rw [List.append_nil]⟩
  | cons b S ih =>
    rw [List.map_cons, execAll] at h
    split at h
    · rename_i v hfirst
      obtain ⟨r, u, hfeed, rfl⟩ := exec_feed_give_next hfirst
      obtain ⟨rs, w, hfeeds, rfl⟩ := ih h
      exact ⟨r :: rs, w, by simp only [feedBytes, hfeed, hfeeds, List.filter_cons], by
        rw [List.append_assoc, List.singleton_append]⟩
    · cases h
    · cases h

/-- The same for `FEEDN` after results given before it, which it leaves out. -/
theorem feedAll_of_execAll_feeds {S : List Byte} {s t : State} {qs : List Response}
    (h : execAll (S.map .feed) (s.give qs) = .next t) :
    ∃ rs, t.results = s.results ++ (qs ++ rs) ∧
      feedAll S s = .next { t with results := s.results ++ rs.filter Response.isSome } := by
  obtain ⟨rs, u, hfeeds, rfl⟩ := feedBytes_of_execAll_feeds h
  have hres : u.results = s.results := (feedBytes_keeps_caller hfeeds).2
  refine ⟨rs, by rw [State.give_results, hres], (feedAll_next_iff S s _).mpr ⟨_, u, hfeeds, ?_⟩⟩
  rw [State.give, State.give, hres]

/-- What the caller's law says of an operation that completes: on any other caller's side it completes
alike, with the same results appended. -/
theorem CallerLaw.next {f : State → Host.Outcome State Fault Refusal} (hf : CallerLaw f) {s t : State}
    (h : f s = .next t) :
    t.pending = s.pending ∧ ∃ rs, t.results = s.results ++ rs ∧
      ∀ ps qs, f (s.withCaller ps qs) = .next (t.withCaller ps (qs ++ rs)) := by
  have hlaw := hf s
  simp only [h] at hlaw
  obtain ⟨hpend, rs, hres, -⟩ := hlaw s.pending s.results
  refine ⟨hpend, rs, hres, fun ps qs => ?_⟩
  obtain ⟨-, rs', hres', hother⟩ := hlaw ps qs
  obtain rfl := List.append_cancel_left (hres.symm.trans hres')
  exact hother

/-- Settles O42: a core operation is its own expansion; the others are `ENC` or a chunk. -/
theorem expansionsAgree : Obligations.ExpansionsAgree := by
  intro i s t h
  have hcore {j : Instr} (h : execAll [j] s = .next t) : ∃ rs qs, t.results = s.results ++ rs ∧
      exec j s = .next { t with results := s.results ++ qs } ∧
      qs.filter Response.isSome = rs.filter Response.isSome := by
    rw [execAll_singleton] at h
    obtain ⟨-, rs, hres, -⟩ := (exec_callerLaw j).next h
    exact ⟨rs, rs, hres, by rw [h, ← hres], rfl⟩
  have hchunk {S : List Byte} (h : execAll (S.map .feed) s = .next t) : ∃ rs qs, t.results = s.results ++ rs ∧
      feedAll S s = .next { t with results := s.results ++ qs } ∧
      qs.filter Response.isSome = rs.filter Response.isSome := by
    obtain ⟨rs, hres, hall⟩ := feedAll_of_execAll_feeds (qs := []) (s.give_nil.symm ▸ h)
    exact ⟨rs, rs.filter Response.isSome, hres, hall, by simp⟩
  cases i with
  | feedn S => exact hchunk h
  | decode S =>
    obtain ⟨rs, hres, hall⟩ := feedAll_of_execAll_feeds (s := s.resetDecoder) (qs := [.none]) h
    exact ⟨.none :: rs, rs.filter Response.isSome, hres, hall, by simp⟩
  | txreq A P => exact hcore (j := .enc A P) h
  | rxframe declaredLen tail => exact hchunk h
  | _ => exact hcore h

end Sys2Proof.Machine
end

section
/-! PROOF. The issue order and overlaps (20_memory.md section 5): runs fold the operations, and an admitted
overlap has no order but that of its results. -/

namespace Sys2Proof.Machine

/-! One operation of the issue order. -/

/-- A step on a request that decodes performs its instruction on the rest of the issue order. -/
theorem step_single_of_ok {s : State} {r : Request} {rest : List Launch} {i : Instr}
    (hp : s.pending = .single r :: rest) (hd : decode r = .ok i) : step s = exec i { s with pending := rest } := by
  rw [step, runNext_cons hp]
  simp only [runLaunch, runRequest, hd]

/-- Settles O5: the three outcomes of taking the front of the issue order. -/
theorem stepRunsTheDecodedInstruction : Obligations.StepRunsTheDecodedInstruction := by
  refine ⟨fun _ _ _ _ => step_single_of_ok, fun s r rest e hp hd => ?_, fun _ => runNext_idle⟩
  rw [step, runNext_cons hp]
  simp only [runLaunch, runRequest, hd]

/-! Unrolling a run by one step. -/

theorem core_run_next (M : Host.Core) {k : Nat} {s t : M.State} (h : M.step s = .next t) :
    M.run (k + 1) s = M.run k t := by
  rw [Host.Core.run, h]

theorem core_run_fault (M : Host.Core) {k : Nat} {s : M.State} {f : M.Fault} (h : M.step s = .fault f) :
    M.run (k + 1) s = .fault f := by
  rw [Host.Core.run, h]

theorem core_run_refused (M : Host.Core) {k : Nat} {s : M.State} {w : M.Refusal} (h : M.step s = .refused w) :
    M.run (k + 1) s = .refused w := by
  rw [Host.Core.run, h]

/-- Settles O6: by induction on the requests; performing one does not see those issued after it. -/
theorem runFoldsTheOperations : Obligations.RunFoldsTheOperations := by
  intro rs is s hdec hp
  induction rs generalizing is s with
  | nil =>
    obtain rfl := List.map_eq_nil_iff.mp hdec.symm
    exact congrArg Host.Outcome.next (by rw [← show s.pending = [] from hp])
  | cons r rs ih =>
    obtain ⟨i, is, rfl, hi, his⟩ := List.map_eq_cons_iff.mp hdec.symm
    have hstep : core.step s = exec i { s with pending := rs.map .single } := step_single_of_ok hp hi.symm
    have hlaw := exec_callerLaw i { s with pending := rs.map .single } [] s.results
    have hfront : { s with pending := [] } =
      State.withCaller { s with pending := rs.map .single } [] s.results := rfl
    rw [execAll, hfront]
    cases hexec : exec i { s with pending := rs.map .single } with
    | next t =>
      simp only [hexec] at hlaw
      obtain ⟨hpend, qs, hres, halone⟩ := hlaw
      have hrest : execAll is { t with pending := [] } = execAll is (t.withCaller [] (s.results ++ qs)) := by
        rw [State.withCaller, ← hres]
      rw [halone]
      exact (core_run_next core (hstep.trans hexec)).trans ((ih is t his.symm hpend).trans hrest)
    | fault f =>
      simp only [hexec] at hlaw
      rw [hlaw]
      exact core_run_fault core (hstep.trans hexec)
    | refused w =>
      simp only [hexec] at hlaw
      rw [hlaw]
      exact core_run_refused core (hstep.trans hexec)

/-! Overlaps. -/

/-- A step on an overlap whose requests decode. -/
theorem step_overlap_decoded {s : State} {rs : List Request} {rest : List Launch} {is : List Instr}
    (hp : s.pending = .overlap rs :: rest) (hd : rs.map decode = is.map .ok) :
    step s = if (is.filter touchesDecoder).length ≤ 1 then execAll is { s with pending := rest }
      else .refused .overlap := by
  rw [step, runNext_cons hp, runLaunch, runOverlap_decoded hd]

/-- Settles O7: both operations count, whatever stands around them. -/
theorem overlapOnTheDecoderIsRefused : Obligations.OverlapOnTheDecoderIsRefused := by
  intro s rs rest i j A B C hp hd htouch
  have htouches : ∀ k ∈ [i, j], touchesDecoder k = true := by
    intro k hk
    obtain rfl | ⟨b, rfl⟩ | rfl | ⟨S, rfl⟩ | ⟨S, rfl⟩ | ⟨n, tail, rfl⟩ := htouch k hk <;> rfl
  have hi : touchesDecoder i = true := htouches i (by simp)
  have hj : touchesDecoder j = true := htouches j (by simp)
  have htwo : ¬ ((A ++ i :: (B ++ j :: C)).filter touchesDecoder).length ≤ 1 := by
    simp [hi, hj]
    omega
  rw [step_overlap_decoded hp hd, if_neg htwo]

/-- An operation that does not touch decoder state completes with one result in every state, and only gives
it (R20), or is refused in every state. -/
theorem exec_of_not_touchesDecoder {i : Instr} (h : touchesDecoder i = false) :
    (∃ r, ∀ s, exec i s = .next (s.give [r])) ∨ ∃ w, ∀ s, exec i s = .refused w := by
  obtain ⟨henc, htxreq, hcsum, hcsvfy⟩ := statelessOperationsTouchNoState
  cases i with
  | enc A P => exact .inl (henc A P)
  | csum S => exact .inl (hcsum S)
  | csvfy S c => exact .inl (hcsvfy S c)
  | txreq A P => exact .inl (htxreq A P)
  | reserved6 => exact .inr ⟨_, fun _ => rfl⟩
  | reserved7 => exact .inr ⟨_, fun _ => rfl⟩
  | _ => cases h

/-- Where it completes, it completes in every state with that result. -/
theorem exec_stateless {i : Instr} {s t : State} (h : touchesDecoder i = false) (hexec : exec i s = .next t) :
    ∃ r, ∀ s, exec i s = .next (s.give [r]) := by
  obtain hr | ⟨w, hw⟩ := exec_of_not_touchesDecoder h
  · exact hr
  · cases (hw s).symm.trans hexec

/-- The caller's law of sequences. -/
theorem execAll_callerLaw (is : List Instr) : CallerLaw (execAll is) := by
  induction is with
  | nil => exact fun s ps qs => ⟨rfl, [], (List.append_nil _).symm, by rw [List.append_nil]; rfl⟩
  | cons i is ih =>
    intro s ps qs
    have hlaw := exec_callerLaw i s ps qs
    simp only [execAll]
    cases hexec : exec i s with
    | next t =>
      rw [hexec] at hlaw
      obtain ⟨hpend, rs, hres, hother⟩ := hlaw
      have hrest := ih t ps (qs ++ rs)
      rw [hother]
      cases hall : execAll is t with
      | next u =>
        simp only [hall] at hrest ⊢
        obtain ⟨hpend', rs', hres', hother'⟩ := hrest
        exact ⟨hpend'.trans hpend, rs ++ rs', by rw [hres', hres, List.append_assoc], by
          rw [hother', List.append_assoc]⟩
      | fault f =>
        simp only [hall] at hrest ⊢
        exact hrest
      | refused w =>
        simp only [hall] at hrest ⊢
        exact hrest
    | fault f =>
      rw [hexec] at hlaw
      simp only [hlaw]
    | refused w =>
      rw [hexec] at hlaw
      simp only [hlaw]

/-- Two operations of which at most one touches decoder state may change places: only their results do. -/
theorem exec_swap {a b : Instr} {s u v : State} (hone : touchesDecoder a = false ∨ touchesDecoder b = false)
    (hb : exec b s = .next u) (ha : exec a u = .next v) :
    ∃ w qs, exec a s = .next w ∧ exec b w = .next (v.withCaller v.pending qs) ∧ qs.Perm v.results := by
  obtain ha0 | hb0 := hone
  · obtain ⟨r, hr⟩ := exec_stateless ha0 ha
    cases (hr u).symm.trans ha
    obtain ⟨hpend, rs, hres, hother⟩ := (exec_callerLaw b).next hb
    refine ⟨s.give [r], s.results ++ [r] ++ rs, hr s, ?_, ?_⟩
    · rw [State.give_pending, hpend]
      exact hother s.pending (s.results ++ [r])
    · rw [State.give_results, hres, List.append_assoc, List.append_assoc]
      exact List.perm_append_comm.append_left _
  · obtain ⟨r, hr⟩ := exec_stateless hb0 hb
    cases (hr s).symm.trans hb
    obtain ⟨hpend, rs, hres, hother⟩ := (exec_callerLaw a).next ha
    refine ⟨v.withCaller s.pending (s.results ++ rs), s.results ++ rs ++ [r], hother s.pending s.results, ?_, ?_⟩
    · rw [hr, hpend]
      rfl
    · rw [hres, State.give_results, List.append_assoc, List.append_assoc]
      exact List.perm_append_comm.append_left _

/-- Operations of which at most one touches decoder state may be performed in any order: only their results
change places. -/
theorem execAll_perm {is js : List Instr} (hperm : is.Perm js)
    (hone : (is.filter touchesDecoder).length ≤ 1) {s t : State} (h : execAll is s = .next t) :
    ∃ qs, execAll js s = .next (t.withCaller t.pending qs) ∧ qs.Perm t.results := by
  induction hperm generalizing s t with
  | nil => exact ⟨t.results, h, .rfl⟩
  | @cons i is js _ ih =>
    have htail : (is.filter touchesDecoder).length ≤ 1 :=
      (((List.sublist_cons_self i is).filter _).length_le).trans hone
    rw [execAll] at h ⊢
    split at h
    · exact ih htail h
    · cases h
    · cases h
  | swap a b is =>
    have hpair : touchesDecoder a = false ∨ touchesDecoder b = false := by
      by_contra hboth
      simp only [not_or, Bool.not_eq_false] at hboth
      simp [hboth] at hone
    rw [execAll] at h
    split at h
    · rename_i u hb
      rw [execAll] at h
      split at h
      · rename_i v ha
        obtain ⟨w, qs, ha', hb', hqs⟩ := exec_swap hpair hb ha
        obtain ⟨hpend, rs, hres, hother⟩ := (execAll_callerLaw is).next h
        refine ⟨qs ++ rs, ?_, ?_⟩
        · simp only [execAll, ha', hb', hother, hpend]
        · rw [hres]
          exact hqs.append_right rs
      · cases h
      · cases h
    · cases h
    · cases h
  | trans hfirst _ ih ih' =>
    obtain ⟨ps, hall, hps⟩ := ih hone h
    obtain ⟨qs, hall', hqs⟩ := ih' (((hfirst.filter _).length_eq).symm.le.trans hone) hall
    exact ⟨qs, hall', hqs.trans hps⟩

/-- Requests decode to instructions exactly when they do so place by place. -/
theorem map_decode_eq_iff_forall₂ (rs : List Request) (is : List Instr) :
    rs.map decode = is.map .ok ↔ List.Forall₂ (fun r i => decode r = .ok i) rs is := by
  rw [← List.forall₂_map_right_iff (f := Except.ok) (R := fun r i => decode r = i),
    ← List.forall₂_map_left_iff (f := decode) (R := (· = ·)), List.forall₂_eq_eq_eq]

/-- Requests in another order decode to the instructions in another order. -/
theorem decoded_perm {rs qs : List Request} {is : List Instr} (hperm : rs.Perm qs)
    (hd : rs.map decode = is.map .ok) : ∃ js : List Instr, is.Perm js ∧ qs.map decode = js.map .ok := by
  obtain ⟨js, hjs, hperm'⟩ :=
    List.perm_comp_forall₂ hperm.symm ((map_decode_eq_iff_forall₂ rs is).mp hd)
  exact ⟨js, hperm'.symm, (map_decode_eq_iff_forall₂ qs js).mpr hjs⟩

/-- Settles O8: the instructions of the two orders are a permutation of each other. -/
theorem admittedOverlapHasNoOrder : Obligations.AdmittedOverlapHasNoOrder := by
  intro s rs qs rest t hp hstep hperm
  rw [step, runNext_cons hp] at hstep
  obtain ⟨is, hd, hone, hall⟩ := runOverlap_next hstep
  obtain ⟨js, hjs, hd'⟩ := decoded_perm hperm hd
  obtain ⟨ps, hall', hps⟩ := execAll_perm hjs hone hall
  have hone' : (js.filter touchesDecoder).length ≤ 1 := ((hjs.filter _).length_eq).symm.le.trans hone
  refine ⟨t.withCaller t.pending ps, ?_, rfl, hps⟩
  rw [step_overlap_decoded (s := { s with pending := .overlap qs :: rest }) rfl hd', if_pos hone']
  exact hall'

/-- Operations that give one result each, one after another, give their results in order. -/
theorem execAll_stateless {is : List Instr} (h : ∀ i ∈ is, ∃ r, ∀ s, exec i s = .next (s.give [r])) :
    ∃ rs, ∀ s, execAll is s = .next (s.give rs) := by
  induction is with
  | nil => exact ⟨[], fun s => congrArg Host.Outcome.next s.give_nil.symm⟩
  | cons i is ih =>
    obtain ⟨⟨r, hr⟩, his⟩ := List.forall_mem_cons.mp h
    obtain ⟨rs, hrs⟩ := ih his
    refine ⟨r :: rs, fun s => ?_⟩
    simp only [execAll, hr, hrs, State.give_give, List.singleton_append]

/-- Only the reserved codes do not complete from a state that meets the invariant. -/
theorem exec_completes {i : Instr} {s : State} (hinv : s.Inv) (h6 : i ≠ .reserved6) (h7 : i ≠ .reserved7) :
    ∃ t, exec i s = .next t := by
  cases h : absExec i s.abs with
  | some p =>
    obtain ⟨t, hexec, -⟩ := exec_realises hinv h
    exact ⟨t, hexec⟩
  | none =>
    cases i with
    | reserved6 => exact absurd rfl h6
    | reserved7 => exact absurd rfl h7
    | _ => cases h

/-- Settles O57: the others only give their results, before and after those of the one operation. -/
theorem admittedOverlapCompletes : Obligations.AdmittedOverlapCompletes := by
  intro s rs rest A B d hinv hp hd hothers h6 h7
  have hquiet : ∀ i ∈ A ++ B, touchesDecoder i = false ∧ ∃ r, ∀ s, exec i s = .next (s.give [r]) := by
    obtain ⟨henc, htxreq, hcsum, hcsvfy⟩ := statelessOperationsTouchNoState
    intro i hi
    obtain ⟨X, P, rfl⟩ | ⟨S, rfl⟩ | ⟨S, c, rfl⟩ | ⟨X, P, rfl⟩ := hothers i hi
    · exact ⟨rfl, henc X P⟩
    · exact ⟨rfl, hcsum S⟩
    · exact ⟨rfl, hcsvfy S c⟩
    · exact ⟨rfl, htxreq X P⟩
  obtain ⟨hA, hB⟩ := List.forall_mem_append.mp hquiet
  have hone : ((A ++ d :: B).filter touchesDecoder).length ≤ 1 := by
    have hnone {is : List Instr} (h : ∀ i ∈ is, touchesDecoder i = false ∧ ∃ r, ∀ s, exec i s = .next (s.give [r])) :
        is.filter touchesDecoder = [] := List.filter_eq_nil_iff.mpr fun i hi => by simp [(h i hi).1]
    rw [List.filter_append, hnone hA, List.nil_append, List.filter_cons, hnone hB]
    split <;> simp
  obtain ⟨as, has⟩ := execAll_stateless fun i hi => (hA i hi).2
  obtain ⟨bs, hbs⟩ := execAll_stateless fun i hi => (hB i hi).2
  obtain ⟨u, hu⟩ := exec_completes (hinv.withPending rest) h6 h7
  obtain ⟨hpend, qs, -, hother⟩ := (exec_callerLaw d).next hu
  have hall : execAll (A ++ d :: B) { s with pending := rest } =
      .next ((u.withCaller rest (s.results ++ as ++ qs)).give bs) := by
    have hd' : exec d (State.give { s with pending := rest } as) = .next (u.withCaller rest (s.results ++ as ++ qs)) :=
      hother rest (s.results ++ as)
    simp only [execAll_append, has, execAll, hd', hbs]
  refine ⟨_, u, ?_, hall, hu, ?_⟩
  · rw [step_overlap_decoded hp hd, if_pos hone, hall]
  · exact congrArg (fun ps => u.withCaller ps u.results) hpend.symm

end Sys2Proof.Machine
end
